-- ==== Sys2Proof/Word.lean ====
section
/-! DEFINITION. Word.lean: the two bit-vector types of the core (spec/00_scope.md R6, R8). -/

namespace Sys2Proof

/-- A field element, a RAM byte or an 8-bit register (R6: field element width 8 bits). -/
abbrev Byte := BitVec 8

/-- A host bus word or a command word (R6: host data bus width 32 bits). -/
abbrev Word := BitVec 32

end Sys2Proof
end

