-- ==== Sys2Proof/Syntax.lean ====
section
/-! DEFINITION. Syntax.lean: the 13 commands of spec/30_encoding.md R83, one constructor for each row of
spec/opcode_table.json. -/

namespace Sys2Proof

/-- A command. `p` is the key byte position of field P (0..31), `i` the point index of field I (0..255)
(spec/30_encoding.md R81, R82); WellFormed.lean checks the ranges. -/
inductive Instr where
  | nop
  | add
  | mul
  | inv
  | eval (p : Nat)
  | bshare (p : Nat)
  | basis (i : Nat)
  | bcomb (p : Nat)
  | rngfill
  | kshare
  | kcreate
  | kcomb
  | zero
  deriving DecidableEq, Repr

/-- The mnemonic of a command, as spec/opcode_table.json spells it. -/
def Instr.mnemonic : Instr → String
  | .nop => "NOP"
  | .add => "ADD"
  | .mul => "MUL"
  | .inv => "INV"
  | .eval _ => "EVAL"
  | .bshare _ => "BSHARE"
  | .basis _ => "BASIS"
  | .bcomb _ => "BCOMB"
  | .rngfill => "RNGFILL"
  | .kshare => "KSHARE"
  | .kcreate => "KCREATE"
  | .kcomb => "KCOMB"
  | .zero => "ZERO"

end Sys2Proof
end

