-- ==== Sys2Proof/WellFormed.lean ====
section
/-! DEFINITION. WellFormed.lean: the range of each operand field (spec/30_encoding.md R81, R82). -/

namespace Sys2Proof

/-- Field P has 5 bits and field I has 8 (R81). Whether `i` is below M is checked at execution, not here (R82). -/
def Instr.wellFormed : Instr → Bool
  | .eval p => decide (p < 32)
  | .bshare p => decide (p < 32)
  | .bcomb p => decide (p < 32)
  | .basis i => decide (i < 256)
  | .nop => true
  | .add => true
  | .mul => true
  | .inv => true
  | .rngfill => true
  | .kshare => true
  | .kcreate => true
  | .kcomb => true
  | .zero => true

end Sys2Proof
end

