-- ==== Sys2Proof/Decode.lean ====
section
/-! DEFINITION. Decode.lean: the decoder of command words, total over all 2^32 words (spec/30_encoding.md R86), and
the encoder written from the same table (R84). -/

namespace Sys2Proof

/-- The test of one row of R84: `(w AND mask) = match`. -/
def selects (w mtch mask : Word) : Bool := w &&& mask == mtch

/-- Field P, bits [12:8], zero-extended (R81, R82). -/
def fieldP (w : Word) : Nat := (w.extractLsb' 8 5).toNat

/-- Field I, bits [23:16], zero-extended (R81, R82). -/
def fieldI (w : Word) : Nat := (w.extractLsb' 16 8).toNat

/-- The command a word selects by the rows of R84; none for an illegal word (R85). -/
def decode (w : Word) : Option Instr :=
  if selects w 0x00000000 0xFFFFFFFF then some .nop
  else if selects w 0x00000001 0xFFFFFFFF then some .add
  else if selects w 0x00000002 0xFFFFFFFF then some .mul
  else if selects w 0x00000003 0xFFFFFFFF then some .inv
  else if selects w 0x00000010 0xFFFFE0FF then some (.eval (fieldP w))
  else if selects w 0x00000011 0xFFFFE0FF then some (.bshare (fieldP w))
  else if selects w 0x00000012 0xFF00FFFF then some (.basis (fieldI w))
  else if selects w 0x00000013 0xFFFFE0FF then some (.bcomb (fieldP w))
  else if selects w 0x00000020 0xFFFFFFFF then some .rngfill
  else if selects w 0x00000021 0xFFFFFFFF then some .kshare
  else if selects w 0x00000022 0xFFFFFFFF then some .kcreate
  else if selects w 0x00000023 0xFFFFFFFF then some .kcomb
  else if selects w 0x00000030 0xFFFFFFFF then some .zero
  else none

/-- The match word of a command's row (R84). -/
def Instr.matchWord : Instr → Word
  | .nop => 0x00000000
  | .add => 0x00000001
  | .mul => 0x00000002
  | .inv => 0x00000003
  | .eval _ => 0x00000010
  | .bshare _ => 0x00000011
  | .basis _ => 0x00000012
  | .bcomb _ => 0x00000013
  | .rngfill => 0x00000020
  | .kshare => 0x00000021
  | .kcreate => 0x00000022
  | .kcomb => 0x00000023
  | .zero => 0x00000030

/-- The mask of a command's row (R84). -/
def Instr.maskWord : Instr → Word
  | .nop => 0xFFFFFFFF
  | .add => 0xFFFFFFFF
  | .mul => 0xFFFFFFFF
  | .inv => 0xFFFFFFFF
  | .eval _ => 0xFFFFE0FF
  | .bshare _ => 0xFFFFE0FF
  | .basis _ => 0xFF00FFFF
  | .bcomb _ => 0xFFFFE0FF
  | .rngfill => 0xFFFFFFFF
  | .kshare => 0xFFFFFFFF
  | .kcreate => 0xFFFFFFFF
  | .kcomb => 0xFFFFFFFF
  | .zero => 0xFFFFFFFF

/-- The operand bits of a command: `p << 8` or `i << 16` (R88). -/
def Instr.operandBits : Instr → Word
  | .eval p => BitVec.ofNat 32 p <<< 8
  | .bshare p => BitVec.ofNat 32 p <<< 8
  | .bcomb p => BitVec.ofNat 32 p <<< 8
  | .basis i => BitVec.ofNat 32 i <<< 16
  | .nop => 0
  | .add => 0
  | .mul => 0
  | .inv => 0
  | .rngfill => 0
  | .kshare => 0
  | .kcreate => 0
  | .kcomb => 0
  | .zero => 0

/-- The command word of a well-formed command: `match OR operand bits` (R88, R89). -/
def encode (i : Instr) : Word := i.matchWord ||| i.operandBits

/-- The low `nbits` bits of a table word as one command word, every bit above them 0. The core has one word length, so
one 32-bit word is the whole command (R80, R87). -/
def tableWord (nbits w : Nat) : Word := BitVec.ofNat 32 (w % 2 ^ nbits)

/-- The command this decoder reads from a table word: bit 0 is the least significant bit of the one 32-bit word. -/
def decodeTableWord (nbits w : Nat) : Option Instr := decode (tableWord nbits w)

end Sys2Proof
end

