-- ==== Sys2Proof/Config.lean ====
section
/-! DEFINITION. Config.lean: what the spec fixes for the implementation, and the OPEN parameters of
spec/00_scope.md R7 as constants with no body. RNG, the third parameter of R7, is not here: its answers are an
input and stand in State (field rng, log entry 4). -/

namespace Sys2Proof

/-- The constant of the register ID (spec/10_state.md R28). -/
def Config.idWord : Word := 0x53535301

/-- The size of the device window in bytes (spec/00_scope.md R6). -/
def Config.windowSize : Nat := 0x8000

/-- OPEN: the index of the aligned 0x8000-byte block that holds the device window (spec/20_memory.md R50: BASE is
aligned to 0x8000). -/
opaque Config.baseBlock : Nat

/-- BASE, the bus address of byte offset 0 (R7, R50), aligned by its form. -/
def Config.base : Nat := Config.windowSize * Config.baseBlock

/-- OPEN: the latency of a command beyond its first cycle, as a function of the public values only (R7, R211). -/
opaque Config.extraLatency : Word → Byte → Byte → Byte → Nat

/-- LAT(w, N, K, M), at least 1 (spec/70_reset_and_hazards.md R211). No step reads it: the model has no time. -/
def Config.latency (w : Word) (n k m : Byte) : Nat := Config.extraLatency w n k m + 1

/-- FREE VALUE: what a host reads while rst is asserted (spec/93_implementation_defined.md I4: any value); it is
applied to State.freeCount, so each such read is a fresh value. -/
opaque Config.freeWord : Nat → Word

end Sys2Proof
end

