-- ==== Sys2Proof/Machine/State.lean ====
section
/-! DEFINITION. State.lean: the core's architectural state (spec/10_state.md R20), the inputs that stand beside it,
the reasons a step can stop, and the state at the release of reset (R39, R200). -/

namespace Sys2Proof.Machine

/-- The error codes of STATUS.ERR that the core produces (spec/60_exceptions.md R181); codes 4..15 are never
produced, so they have no constructor. -/
inductive ErrCode where
  | ok
  | illegalCommand
  | invalidParameters
  | randomSourceExhausted
  deriving DecidableEq, Repr

/-- PEND, the hidden latched command (spec/10_state.md R35). -/
inductive Pend where
  | none
  | resetClear
  | cmd (w : Word)
  deriving DecidableEq, Repr

/-- One answer of the random source to one request (spec/20_memory.md R64). -/
inductive RngAnswer where
  | byte (b : Byte)
  | fail
  deriving DecidableEq, Repr

/-- The width of a host access; the window accepts `w32` only (spec/20_memory.md R51). -/
inductive Width where
  | w8
  | w16
  | w32
  deriving DecidableEq, Repr

/-- One move of an agent (spec/00_scope.md R15). `core`: the core engine is given its turn. `read`, `write`: the
host's access reaches the device, `off` being its byte offset in the 0x8000-byte window. `answer`: the random source
supplies its next answer. `rstAssert`, `rstRelease`: the two edges of the reset input. -/
inductive Event where
  | core
  | read (width : Width) (off : BitVec 15)
  | write (width : Width) (off : BitVec 15) (v : Word)
  | answer (a : RngAnswer)
  | rstAssert
  | rstRelease
  deriving DecidableEq, Repr

/-- What an aligned byte offset of the window names (the map of spec/20_memory.md R53); a RAM window carries the
index of the word's first byte in that RAM. -/
inductive Loc where
  | id
  | cmd
  | status
  | param
  | a
  | b
  | r
  | irqen
  | cmdlast
  | key (j : Nat)
  | coef (j : Nat)
  | share (j : Nat)
  | reserved
  deriving DecidableEq, Repr

/-- The three RAMs in one list of (byte offset in the window, byte), in the form Memory.wf: offsets strictly rising, no
byte 0x00. An unlisted offset reads 0x00 (R39, R41). -/
abbrev Memory := List Host.Cell

/-- The state. From `a` to `mem` it is the architectural state of R20 (BUSY is `pend ≠ none` by R35, ID is a constant,
CMD has no storage, irq is computed); from `rst` on it is the model's own: the reset input, the two input queues,
what the host has read, and the counter of free values. -/
structure State where
  /-- Operand register A (R22). -/
  a : Byte
  /-- Operand register B (R23). -/
  b : Byte
  /-- Result register R (R24). -/
  r : Byte
  /-- PARAM.N (R25). -/
  paramN : Byte
  /-- PARAM.K (R25). -/
  paramK : Byte
  /-- PARAM.M (R25). -/
  paramM : Byte
  /-- STATUS.DONE (R26). -/
  done : Bool
  /-- STATUS.WBUSY (R26). -/
  wbusy : Bool
  /-- STATUS.ERR (R26). -/
  err : ErrCode
  /-- IRQEN.IE (R27). -/
  ie : Bool
  /-- CMDLAST (R30). -/
  cmdlast : Word
  /-- PEND (R35). -/
  pend : Pend
  /-- KEY, COEF and SHARE (R31 to R33). -/
  mem : Memory
  /-- Input: the level of the reset input (spec/70_reset_and_hazards.md R200), true while it is asserted. -/
  rst : Bool
  /-- Input: RNG, the answers to the coming requests, in order (spec/20_memory.md R64); a request past the last one
  has no answer so far (R65). -/
  rng : List RngAnswer
  /-- Input: the coming moves of the agents in their order of arrival (R66); when it is empty, the core has the turn. -/
  events : List Event
  /-- Output: the words the host has read, oldest first. -/
  hostReads : List Word
  /-- How many free values have been used (log entry 6). -/
  freeCount : Nat
  deriving DecidableEq, Repr

/-- Why the machine stops with a fault. -/
inductive Fault where
  /-- Raised by a host access that is not 32 bits wide or whose offset is not a multiple of 4, which the device answers
  with a bus error (spec/20_memory.md R51, spec/60_exceptions.md R186: a model treats it as a fault of the host's
  step). Safe: the hardware goes on with its state unchanged, and no claim is proved past the fault. -/
  | busError
  deriving DecidableEq, Repr

/-- Why the machine refuses a command. -/
inductive Refusal where
  /-- Raised by exec for a command that has no meaning yet; no arm of exec raises it. Safe: the run stops. -/
  | notModelled (mnemonic : String)
  deriving DecidableEq, Repr

/-- The state at the release of the reset input, before the reset clear (R39, R200): STATUS = 0x00000001. -/
def State.reset : State :=
  { a := 0, b := 0, r := 0
    paramN := 0, paramK := 0, paramM := 0
    done := false, wbusy := false, err := .ok
    ie := false, cmdlast := 0
    pend := .resetClear
    mem := []
    rst := false, rng := [], events := [], hostReads := [], freeCount := 0 }

end Sys2Proof.Machine
end

