-- ==== Sys2Proof/Machine/Ops.lean ====
section
/-! DEFINITION. Ops.lean: the shared operations: RAM bytes, the pseudocode's loops, GF(256) arithmetic (the units U1
and U2), acceptance and completion of a command. Completion with an error code is what the core has in place of taking
an exception (spec/60_exceptions.md R180, R191: no trap, no saved state, no return). -/

namespace Sys2Proof.Machine

/-! ### Memory -/

/-- The byte at a window offset; an unlisted offset reads 0x00 (spec/10_state.md R41). -/
def Memory.read : Memory → Nat → Byte
  | [], _ => 0
  | (k, b) :: m, a => if k = a then b else Memory.read m a

/-- Store a byte, keeping the canonical form: 0x00 is stored by leaving the offset unlisted. -/
def Memory.write : Memory → Nat → Byte → Memory
  | [], a, v => if v = 0 then [] else [(a, v)]
  | (k, b) :: m, a, v =>
    if a < k then (if v = 0 then (k, b) :: m else (a, v) :: (k, b) :: m)
    else if a = k then (if v = 0 then m else (a, v) :: m)
    else (k, b) :: Memory.write m a v

/-- The canonical form: offsets strictly rising, no listed 0x00. -/
abbrev Memory.wf (m : Memory) : Prop :=
  m.Pairwise (fun x y => x.1 < y.1) ∧ ∀ c ∈ m, c.2 ≠ 0

/-- A byte offset of the KEY, COEF or SHARE window that holds storage (spec/20_memory.md R53); the pad byte at 0x60DF
holds none (R58). -/
def isRam (a : Nat) : Bool :=
  (decide (0x100 ≤ a) && decide (a ≤ 0x11F)) || (decide (0x1000 ≤ a) && decide (a ≤ 0x2FBF))
    || (decide (0x4000 ≤ a) && decide (a ≤ 0x60DE))

/-- Store a RAM byte. -/
def State.writeMem (s : State) (a : Nat) (v : Byte) : State := { s with mem := s.mem.write a v }

/-! ### The loops of the pseudocode (spec/00_scope.md R10) -/

/-- `for x in 0..n-1`: the body at 0, then at 1, up to n-1; empty when n = 0. -/
def forUp {σ : Type} : Nat → (Nat → σ → σ) → σ → σ
  | 0, _, x => x
  | n + 1, body, x => body n (forUp n body x)

/-- `for c in n downto 1`: the body at n, then at n-1, down to 1; empty when n = 0. -/
def forDown {σ : Type} : Nat → (Nat → σ → σ) → σ → σ
  | 0, _, x => x
  | n + 1, body, x => forDown n body (body (n + 1) x)

/-! ### GF(256) (spec/40_field_arithmetic.md) -/

/-- The mask of one bit: 0xFF or 0x00 (R103). -/
def bitMask (c : Bool) : Byte := if c then 0xFF else 0x00

/-- One left shift with its reduction by 0x1B (R103). -/
def xtime (a : Byte) : Byte := (a <<< 1) ^^^ (0x1B &&& bitMask (a.getLsbD 7))

/-- `t` iterations of the loop of R103 over p, aa and bb. -/
def gmulLoop : Nat → Byte → Byte → Byte → Byte
  | 0, p, _, _ => p
  | t + 1, p, aa, bb => gmulLoop t (p ^^^ (aa &&& bitMask (bb.getLsbD 0))) (xtime aa) (bb >>> 1)

/-- The field product: 8 iterations from p = 0x00 (R103). -/
def gmul (a b : Byte) : Byte := gmulLoop 8 0 a b

/-- One square-then-multiply step of the inverse chain (R106). -/
def ginvStep (a r : Byte) : Byte := gmul (gmul r r) a

/-- The field inverse a^254: 6 square-then-multiply steps and a final square (R106). -/
def ginv (a : Byte) : Byte :=
  let r := forUp 6 (fun _ => ginvStep a) a
  gmul r r

/-! ### The command lifecycle -/

/-- Acceptance of the word w (spec/43_control.md R161). BUSY becomes 1 because PEND is no longer none. -/
def State.accept (s : State) (w : Word) : State :=
  { s with cmdlast := w, pend := .cmd w, done := false, err := .ok }

/-- `complete(e)` (spec/60_exceptions.md R182): ERR, DONE, and BUSY through PEND; WBUSY is not changed. -/
def State.complete (s : State) (e : ErrCode) : State :=
  { s with err := e, done := true, pend := .none }

/-- Every byte of KEY, COEF and SHARE becomes 0x00 (the loops of spec/43_control.md R160 and
spec/70_reset_and_hazards.md R201): nothing is listed. -/
def State.clearRams (s : State) : State := { s with mem := [] }

/-- The core's step when PEND = reset_clear (R201): it is not reported as a command, so DONE and ERR stay. -/
def State.resetClear (s : State) : State := { s.clearRams with pend := .none }

/-- The registers and PEND take their reset values, as at the release of rst (R200), and a command in execution is
abandoned (R202). The inputs that are not the core's keep their values, but the answers the source had supplied are
dropped with the abandoned requests (log entry 5). -/
def State.resetRegisters (s : State) (level : Bool) : State :=
  { State.reset with
    rst := level, events := s.events, hostReads := s.hostReads, freeCount := s.freeCount }

end Sys2Proof.Machine
end

