-- ==== Sys2Proof/Machine/Operands.lean ====
section
/-! DEFINITION. Operands.lean: every operand form of a command: the bytes KEY[p], C(p, c), SX(i), SY(i, p) of the RAMs
(spec/00_scope.md R11), the counts of PARAM, and the parameter checks of spec/60_exceptions.md R184. -/

namespace Sys2Proof.Machine

/-! ### Window offsets of the operand bytes -/

/-- KEY[p] (spec/10_state.md R32). -/
def keyAddr (p : Nat) : Nat := 0x100 + p

/-- COEF[j] (R33). -/
def coefByteAddr (j : Nat) : Nat := 0x1000 + j

/-- C(p, c) = COEF[p*254 + c - 1], c at least 1 (R33). -/
def coefAddr (p c : Nat) : Nat := coefByteAddr (p * 254 + c - 1)

/-- SHARE[j] (R31). -/
def shareByteAddr (j : Nat) : Nat := 0x4000 + j

/-- SX(i) = SHARE[33*i] (R31). -/
def sxAddr (i : Nat) : Nat := shareByteAddr (33 * i)

/-- SY(i, p) = SHARE[33*i + 1 + p] (R31). -/
def syAddr (i p : Nat) : Nat := shareByteAddr (33 * i + 1 + p)

/-! ### Reads -/

def State.key (s : State) (p : Nat) : Byte := s.mem.read (keyAddr p)

def State.coef (s : State) (p c : Nat) : Byte := s.mem.read (coefAddr p c)

def State.sx (s : State) (i : Nat) : Byte := s.mem.read (sxAddr i)

def State.sy (s : State) (i p : Nat) : Byte := s.mem.read (syAddr i p)

/-! ### Writes -/

def State.setKey (s : State) (p : Nat) (v : Byte) : State := s.writeMem (keyAddr p) v

def State.setCoef (s : State) (p c : Nat) (v : Byte) : State := s.writeMem (coefAddr p c) v

def State.setSx (s : State) (i : Nat) (v : Byte) : State := s.writeMem (sxAddr i) v

def State.setSy (s : State) (i p : Nat) (v : Byte) : State := s.writeMem (syAddr i p) v

/-! ### Counts and parameter checks -/

/-- N as a natural number (spec/10_state.md R25). -/
def State.countN (s : State) : Nat := s.paramN.toNat

/-- K as a natural number (R25). -/
def State.countK (s : State) : Nat := s.paramK.toNat

/-- M as a natural number (R25). -/
def State.countM (s : State) : Nat := s.paramM.toNat

/-- The check of EVAL and RNGFILL: `K = 0` fails (R184). -/
def State.thresholdOk (s : State) : Bool := decide (s.countK ≠ 0)

/-- The check of BSHARE, KSHARE and KCREATE: `1 <= K and K <= N` (R184; N = 0 fails it). -/
def State.createOk (s : State) : Bool := decide (1 ≤ s.countK ∧ s.countK ≤ s.countN)

/-- The check of BCOMB and KCOMB: `M = 0` fails (R184). -/
def State.combineOk (s : State) : Bool := decide (s.countM ≠ 0)

/-- The check of BASIS i: `M = 0 or i >= M` fails (R184). -/
def State.basisOk (s : State) (i : Nat) : Bool := decide (s.countM ≠ 0 ∧ i < s.countM)

/-! ### The functions of the operands -/

/-- `poly(p, x)`, the share polynomial of byte position p by Horner's rule from degree K-1 down (spec/41_byte_sharing.md
R120). -/
def State.poly (s : State) (p : Nat) (x : Byte) : Byte :=
  let y := forDown (s.countK - 1) (fun c y => gmul y x ^^^ s.coef p c) 0
  gmul y x ^^^ s.key p

/-- Numerator and denominator of basis(i) over the records 0..n-1 (R123). -/
def State.basisProducts (s : State) (i n : Nat) : Byte × Byte :=
  forUp n (fun j nd => if j = i then nd else (gmul nd.1 (s.sx j), gmul nd.2 (s.sx i ^^^ s.sx j))) (1, 1)

/-- `basis(i)`, the Lagrange basis value at x = 0 over M points (R123). -/
def State.basis (s : State) (i : Nat) : Byte :=
  let nd := s.basisProducts i s.countM
  gmul nd.1 (ginv nd.2)

/-- `comb(p)`, the combined byte of position p over M points (R125). -/
def State.comb (s : State) (p : Nat) : Byte :=
  forUp s.countM (fun i acc => acc ^^^ gmul (s.sy i p) (s.basis i)) 0

end Sys2Proof.Machine
end

