-- ==== Sys2Proof/Machine/Flags.lean ====
section
/-! DEFINITION. Flags.lean: the fields of STATUS and the interrupt output (spec/10_state.md R26, R35, R38). The core
has no arithmetic flags (R37). -/

namespace Sys2Proof.Machine

/-- STATUS.BUSY: 1 exactly when PEND is not none (R26, R35). -/
def State.busy (s : State) : Bool := decide (s.pend ≠ .none)

/-- The code in STATUS[7:4] (spec/60_exceptions.md R181). -/
def ErrCode.code : ErrCode → BitVec 4
  | .ok => 0
  | .illegalCommand => 1
  | .invalidParameters => 2
  | .randomSourceExhausted => 3

/-- One bit of a register word. -/
def bit (c : Bool) : BitVec 1 := BitVec.ofBool c

/-- STATUS as the host reads it: `zext_32(ERR ++ 0b0 ++ WBUSY ++ DONE ++ BUSY)` (spec/20_memory.md R55). -/
def State.statusWord (s : State) : Word :=
  (s.err.code ++ (0 : BitVec 1) ++ bit s.wbusy ++ bit s.done ++ bit s.busy).setWidth 32

/-- A host write to STATUS: writing 1 clears DONE (bit 1) and WBUSY (bit 2), other bits do nothing (R26, R56). -/
def State.writeStatus (s : State) (v : Word) : State :=
  { s with done := s.done && !v.getLsbD 1, wbusy := s.wbusy && !v.getLsbD 2 }

/-- A host write to IRQEN: only bit 0 is stored (R27, R56). -/
def State.writeIrqen (s : State) (v : Word) : State := { s with ie := v.getLsbD 0 }

/-- A dropped host write sets the sticky WBUSY (spec/20_memory.md R60). -/
def State.dropWrite (s : State) : State := { s with wbusy := true }

/-- The output signal irq = DONE AND IE, a level (spec/10_state.md R38, spec/60_exceptions.md R188). -/
def State.irq (s : State) : Bool := s.done && s.ie

end Sys2Proof.Machine
end

