-- ==== Sys2Proof/Machine/Bus.lean ====
section
/-! DEFINITION. Bus.lean: the host's accesses: address map, BusRead and BusWrite, idle and busy (spec/20_memory.md R50
to R60). -/

namespace Sys2Proof.Machine

/-! ### The address map -/

/-- The location an offset names (R53); the RAM windows end at their last word (R55). -/
def locate (off : BitVec 15) : Loc :=
  let o := off.toNat
  if o = 0x000 then .id
  else if o = 0x004 then .cmd
  else if o = 0x008 then .status
  else if o = 0x00C then .param
  else if o = 0x010 then .a
  else if o = 0x014 then .b
  else if o = 0x018 then .r
  else if o = 0x01C then .irqen
  else if o = 0x020 then .cmdlast
  else if 0x100 ≤ o ∧ o ≤ 0x11C then .key (o - 0x100)
  else if 0x1000 ≤ o ∧ o ≤ 0x2FBC then .coef (o - 0x1000)
  else if 0x4000 ≤ o ∧ o ≤ 0x60DC then .share (o - 0x4000)
  else .reserved

/-- The accesses the window accepts: 32 bits wide, at a multiple of 4 (R51). -/
def accessOk (width : Width) (off : BitVec 15) : Bool :=
  decide (width = .w32) && decide (off.toNat % 4 = 0)

/-- The byte offset in the window of a bus address, if the address lies in the window (R50). -/
def offsetOf (addr : Nat) : Option (BitVec 15) :=
  if Config.base ≤ addr ∧ addr < Config.base + Config.windowSize then some (BitVec.ofNat 15 (addr - Config.base))
  else none

/-! ### RAM words, little-endian (R52, R55, R56) -/

/-- `b(t)`: the RAM byte at index t of the RAM of `size` bytes that begins at window offset `start`, 0x00 past its end
(R55), which is the pad byte of SHARE (R58). -/
def State.ramByte (s : State) (start size t : Nat) : Byte :=
  if t < size then s.mem.read (start + t) else 0

/-- `word(X, j, size) = b(j+3) ++ b(j+2) ++ b(j+1) ++ b(j)` (R55). -/
def State.ramWord (s : State) (start j size : Nat) : Word :=
  s.ramByte start size (j + 3) ++ s.ramByte start size (j + 2) ++ s.ramByte start size (j + 1)
    ++ s.ramByte start size j

/-- `v[8t+7 : 8t]`. -/
def laneByte (v : Word) (t : Nat) : Byte := v.extractLsb' (8 * t) 8

/-- `putword(X, j, size, v)`: the four lanes in order, each stored if its index is below size (R56). -/
def State.putWord (s : State) (start j size : Nat) (v : Word) : State :=
  forUp 4 (fun t u => if j + t < size then u.writeMem (start + (j + t)) (laneByte v t) else u) s

/-! ### BusRead -/

/-- What a location reads as when BUSY = 0 (R55). -/
def State.readIdle (s : State) : Loc → Word
  | .id => Config.idWord
  | .cmd => 0
  | .status => s.statusWord
  | .param => (s.paramM ++ s.paramK ++ s.paramN).setWidth 32
  | .a => s.a.setWidth 32
  | .b => s.b.setWidth 32
  | .r => s.r.setWidth 32
  | .irqen => (bit s.ie).setWidth 32
  | .cmdlast => s.cmdlast
  | .key j => s.ramWord 0x100 j 32
  | .coef j => s.ramWord 0x1000 j 8128
  | .share j => s.ramWord 0x4000 j 8415
  | .reserved => 0

/-- The locations that are hidden from reads while BUSY = 1: A, B, R and the RAM windows (R59). -/
def Loc.hidden : Loc → Bool
  | .a => true
  | .b => true
  | .r => true
  | .key _ => true
  | .coef _ => true
  | .share _ => true
  | .id => false
  | .cmd => false
  | .status => false
  | .param => false
  | .irqen => false
  | .cmdlast => false
  | .reserved => false

/-- `BusRead(off)` of an accepted access (R55, R59). -/
def State.busRead (s : State) (off : BitVec 15) : Word :=
  if s.busy && (locate off).hidden then 0 else s.readIdle (locate off)

/-! ### BusWrite -/

/-- What a write to a location does when BUSY = 0 (R56). -/
def State.writeIdle (s : State) (v : Word) : Loc → State
  | .id => s
  | .cmd => s.accept v
  | .status => s.writeStatus v
  | .param =>
    { s with
      paramN := v.extractLsb' 0 8
      paramK := v.extractLsb' 8 8
      paramM := v.extractLsb' 16 8 }
  | .a => { s with a := v.extractLsb' 0 8 }
  | .b => { s with b := v.extractLsb' 0 8 }
  | .r => s
  | .irqen => s.writeIrqen v
  | .cmdlast => s
  | .key j => s.putWord 0x100 j 32 v
  | .coef j => s.putWord 0x1000 j 8128 v
  | .share j => s.putWord 0x4000 j 8415 v
  | .reserved => s

/-- The locations whose writes are dropped while BUSY = 1: CMD, PARAM, A, B and the RAM windows (R60). -/
def Loc.dropped : Loc → Bool
  | .cmd => true
  | .param => true
  | .a => true
  | .b => true
  | .key _ => true
  | .coef _ => true
  | .share _ => true
  | .id => false
  | .status => false
  | .r => false
  | .irqen => false
  | .cmdlast => false
  | .reserved => false

/-- `BusWrite(off, v)` of an accepted access (R56, R60): while busy a dropped write sets WBUSY, and the rest act as when
idle. -/
def State.busWrite (s : State) (off : BitVec 15) (v : Word) : State :=
  if s.busy && (locate off).dropped then s.dropWrite else s.writeIdle v (locate off)

/-! ### The host's step -/

/-- The host reads (R51, R55, R59). While rst is asserted the value is free (spec/93_implementation_defined.md I4). -/
def hostRead (width : Width) (off : BitVec 15) (s : State) : Host.Outcome State Fault Refusal :=
  if accessOk width off then
    if s.rst then
      .next { s with hostReads := s.hostReads ++ [Config.freeWord s.freeCount], freeCount := s.freeCount + 1 }
    else .next { s with hostReads := s.hostReads ++ [s.busRead off] }
  else .fault .busError

/-- The host writes (R51, R56, R60). While rst is asserted the write has no effect (I4). -/
def hostWrite (width : Width) (off : BitVec 15) (v : Word) (s : State) : Host.Outcome State Fault Refusal :=
  if accessOk width off then
    if s.rst then .next s else .next (s.busWrite off v)
  else .fault .busError

end Sys2Proof.Machine
end

