-- ==== Sys2Proof/Machine/ByteSharing.lean ====
section
/-! DEFINITION. ByteSharing.lean: EVAL, BSHARE, BASIS, BCOMB (spec/41_byte_sharing.md). -/

namespace Sys2Proof.Machine

/-- The loop of BSHARE (R122) over the records 0..n-1: x-value i+1 and the y-value at position p. -/
def State.createByteShares (s : State) (p n : Nat) : State :=
  forUp n
    (fun i t =>
      let x := BitVec.ofNat 8 (i + 1)
      let t := t.setSx i x
      t.setSy i p (t.poly p x))
    s

/-- EVAL p (R121): `R <- poly(p, A)`, or InvalidParameters when K = 0. -/
def execEval (p : Nat) (s : State) : Host.Outcome State Fault Refusal :=
  if s.thresholdOk then .next ({ s with r := s.poly p s.a }.complete .ok)
  else .next (s.complete .invalidParameters)

/-- BSHARE p (R122): the x bytes and the y bytes at position p of records 0..N-1. -/
def execBshare (p : Nat) (s : State) : Host.Outcome State Fault Refusal :=
  if s.createOk then .next ((s.createByteShares p s.countN).complete .ok)
  else .next (s.complete .invalidParameters)

/-- BASIS i (R124): `R <- basis(i)`, or InvalidParameters when M = 0 or i >= M. -/
def execBasis (i : Nat) (s : State) : Host.Outcome State Fault Refusal :=
  if s.basisOk i then .next ({ s with r := s.basis i }.complete .ok)
  else .next (s.complete .invalidParameters)

/-- BCOMB p (R126): `KEY[p] <- comb(p)`, or InvalidParameters when M = 0. The x-values are not checked (R128). -/
def execBcomb (p : Nat) (s : State) : Host.Outcome State Fault Refusal :=
  if s.combineOk then .next ((s.setKey p (s.comb p)).complete .ok)
  else .next (s.complete .invalidParameters)

end Sys2Proof.Machine
end

