-- ==== Sys2Proof/Machine/Control.lean ====
section
/-! DEFINITION. Control.lean: ZERO (spec/43_control.md R160). -/

namespace Sys2Proof.Machine

/-- ZERO (R160): A, B, R and every byte of KEY, COEF and SHARE become 0x00; PARAM, IRQEN, CMDLAST and WBUSY stay. -/
def execZero (s : State) : Host.Outcome State Fault Refusal :=
  .next ({ s.clearRams with a := 0, b := 0, r := 0 }.complete .ok)

end Sys2Proof.Machine
end

