-- ==== Sys2Proof/Machine/FieldArithmetic.lean ====
section
/-! DEFINITION. FieldArithmetic.lean: NOP, ADD, MUL, INV (spec/40_field_arithmetic.md). -/

namespace Sys2Proof.Machine

/-- NOP (R101): nothing but the completion. -/
def execNop (s : State) : Host.Outcome State Fault Refusal :=
  .next (s.complete .ok)

/-- ADD (R102): `R <- A ⊕ B`. -/
def execAdd (s : State) : Host.Outcome State Fault Refusal :=
  .next ({ s with r := s.a ^^^ s.b }.complete .ok)

/-- MUL (R105): `R <- gmul(A, B)`. -/
def execMul (s : State) : Host.Outcome State Fault Refusal :=
  .next ({ s with r := gmul s.a s.b }.complete .ok)

/-- INV (R108): `R <- ginv(A)`; A = 0x00 gives 0x00 and is no error. -/
def execInv (s : State) : Host.Outcome State Fault Refusal :=
  .next ({ s with r := ginv s.a }.complete .ok)

end Sys2Proof.Machine
end

