-- ==== Sys2Proof/Machine/KeySharing.lean ====
section
/-! DEFINITION. KeySharing.lean: RNGFILL, KSHARE, KCREATE, KCOMB (spec/42_key_sharing.md). -/

namespace Sys2Proof.Machine

/-! ### Drawing the random coefficients -/

/-- The coefficients a draw for threshold k fills, in the order of R140: p = 0..31 outside, c = 1..k-1 inside. -/
def drawOrder (k : Nat) : List (Nat × Nat) :=
  (List.range 32).flatMap fun p => (List.range (k - 1)).map fun c => (p, c + 1)

/-- The zeroising of R140 after a fail: C(p, c) <- 0x00 over the whole range of the draw. -/
def State.zeroCoefs (s : State) (k : Nat) : State :=
  (drawOrder k).foldl (fun t pc => t.setCoef pc.1 pc.2 0) s

/-- The requests of a draw for threshold k that are still to be made (R140). The answer none says that the source has
not answered one of them, so the core step does not occur (spec/20_memory.md R65). -/
def State.drawFrom (k : Nat) : List (Nat × Nat) → State → Option (ErrCode × State)
  | [], s => some (.ok, s)
  | pc :: rest, s =>
    match s.rng with
    | [] => none
    | .fail :: q => some (.randomSourceExhausted, { s with rng := q }.zeroCoefs k)
    | .byte v :: q => State.drawFrom k rest ({ s with rng := q }.setCoef pc.1 pc.2 v)

/-- `rngdraw()` for threshold K (R140). -/
def State.rngdraw (s : State) : Option (ErrCode × State) :=
  State.drawFrom s.countK (drawOrder s.countK) s

/-! ### Creating and combining -/

/-- The y bytes of record i at the positions 0..31, for the x-value x (R142). -/
def State.createRecord (s : State) (i : Nat) (x : Byte) : State :=
  forUp 32 (fun p t => t.setSy i p (t.poly p x)) s

/-- The loop of KSHARE and KCREATE over the records 0..n-1 (R142, R143). -/
def State.createShares (s : State) (n : Nat) : State :=
  forUp n
    (fun i t =>
      let x := BitVec.ofNat 8 (i + 1)
      (t.setSx i x).createRecord i x)
    s

/-- The loop of KCOMB over the 32 key bytes (R144). -/
def State.combineKey (s : State) : State :=
  forUp 32 (fun p t => t.setKey p (t.comb p)) s

/-! ### The commands -/

/-- RNGFILL (R141). While the source has not answered every request the step changes nothing: PEND stays the command
(spec/43_control.md R163, spec/93_implementation_defined.md I6). -/
def execRngfill (s : State) : Host.Outcome State Fault Refusal :=
  if s.thresholdOk then
    match s.rngdraw with
    | none => .next s
    | some (e, t) => .next (t.complete e)
  else .next (s.complete .invalidParameters)

/-- KSHARE (R142): records 0..N-1 from KEY and COEF. -/
def execKshare (s : State) : Host.Outcome State Fault Refusal :=
  if s.createOk then .next ((s.createShares s.countN).complete .ok)
  else .next (s.complete .invalidParameters)

/-- KCREATE (R143): draw, then share; after a failed draw SHARE is not written. -/
def execKcreate (s : State) : Host.Outcome State Fault Refusal :=
  if s.createOk then
    match s.rngdraw with
    | none => .next s
    | some (e, t) =>
      if e = .ok then .next ((t.createShares s.countN).complete .ok) else .next (t.complete e)
  else .next (s.complete .invalidParameters)

/-- KCOMB (R144): the 32 key bytes, or InvalidParameters when M = 0. -/
def execKcomb (s : State) : Host.Outcome State Fault Refusal :=
  if s.combineOk then .next (s.combineKey.complete .ok)
  else .next (s.complete .invalidParameters)

end Sys2Proof.Machine
end

