-- ==== Sys2Proof/Machine/Dispatch.lean ====
section
/-! DEFINITION. Dispatch.lean: the execution of a decoded command (spec/43_control.md R164), one arm per constructor. -/

namespace Sys2Proof.Machine

def exec (i : Instr) (s : State) : Host.Outcome State Fault Refusal :=
  match i with
  | .nop => Sys2Proof.Machine.execNop s
  | .add => Sys2Proof.Machine.execAdd s
  | .mul => Sys2Proof.Machine.execMul s
  | .inv => Sys2Proof.Machine.execInv s
  | .eval p => Sys2Proof.Machine.execEval p s
  | .bshare p => Sys2Proof.Machine.execBshare p s
  | .basis j => Sys2Proof.Machine.execBasis j s
  | .bcomb p => Sys2Proof.Machine.execBcomb p s
  | .rngfill => Sys2Proof.Machine.execRngfill s
  | .kshare => Sys2Proof.Machine.execKshare s
  | .kcreate => Sys2Proof.Machine.execKcreate s
  | .kcomb => Sys2Proof.Machine.execKcomb s
  | .zero => Sys2Proof.Machine.execZero s

end Sys2Proof.Machine
end

