-- ==== Sys2Proof/Machine/Engine.lean ====
section
/-! DEFINITION. Engine.lean: one move of each agent (spec/00_scope.md R15): the core engine, the host, the random source,
and the reset input. -/

namespace Sys2Proof.Machine

/-- `execute(w)` of spec/43_control.md R164: a word that matches no row completes with IllegalCommand (R183). -/
def executeWord (w : Word) (s : State) : Host.Outcome State Fault Refusal :=
  match decode w with
  | none => .next (s.complete .illegalCommand)
  | some i => exec i s

/-- The core engine's turn (R163): its one step if it has one. An idle core (R196) and a core held in reset (R200)
have none. -/
def coreTurn (s : State) : Host.Outcome State Fault Refusal :=
  if s.rst then .next s
  else
    match s.pend with
    | .none => .next s
    | .resetClear => .next s.resetClear
    | .cmd w => executeWord w s

/-- The random source supplies an answer (spec/20_memory.md R64); while rst is asserted it answers an abandoned request and
is ignored (spec/70_reset_and_hazards.md R202). -/
def supplyAnswer (a : RngAnswer) (s : State) : State :=
  if s.rst then s else { s with rng := s.rng ++ [a] }

/-- One move of the agent that the event names. -/
def moveAgent (e : Event) (s : State) : Host.Outcome State Fault Refusal :=
  match e with
  | .core => coreTurn s
  | .read width off => hostRead width off s
  | .write width off v => hostWrite width off v s
  | .answer a => .next (supplyAnswer a s)
  | .rstAssert => .next (s.resetRegisters true)
  | .rstRelease => .next (s.resetRegisters false)

/-- The next move: the first event in order of arrival, or the core's turn where no event is waiting
(spec/20_memory.md R66). -/
def nextMove (s : State) : Host.Outcome State Fault Refusal :=
  match s.events with
  | [] => coreTurn s
  | e :: rest => moveAgent e { s with events := rest }

/-- The word w accepted as the command in execution (R161), with rst released and the core's turn next. -/
def State.loadCommand (s : State) (w : Word) : State :=
  { s.accept w with rst := false, events := .core :: s.events }

end Sys2Proof.Machine
end

