-- ==== Sys2Proof/Machine/Step.lean ====
section
/-! DEFINITION. Step.lean: the step of the whole machine, and the host's placing of one command. -/

namespace Sys2Proof.Machine

/-- One step: one move of one agent (spec/00_scope.md R15). -/
def step (s : State) : Host.Outcome State Fault Refusal := nextMove s

/-- The state in which the command of the table word is the latched command and the core moves next. The core fetches
nothing (spec/10_state.md R35): PEND holds the command in execution, and acceptance (R161) fills it. -/
def State.withFetchWord (s : State) (nbits w : Nat) : State := s.loadCommand (tableWord nbits w)

end Sys2Proof.Machine
end

