-- ==== Sys2Proof/Machine/Counts.lean ====
section
/-! DEFINITION. Counts.lean: the operations of each command in the order of its pseudocode: field operations, random
requests, and RAM locations touched (spec/70_reset_and_hazards.md R212, spec/40_field_arithmetic.md R109,
spec/41_byte_sharing.md R129). Each function below is a function of Ops.lean, Operands.lean or a command's loop written
again over values that carry their operations. No step reads them (R212); Laws/Counts.lean proves that the values are
those of the functions counted (log entry 12). -/

namespace Sys2Proof.Machine

/-- One operation: a call of gmul, a call of ginv (its gmul calls follow), a request at the random port, or a RAM byte
touched at a window offset. -/
inductive Op where
  | gmul
  | ginv
  | request
  | load (off : Nat)
  | store (off : Nat)
  deriving DecidableEq, Repr

/-- The RAM location an operation touches. -/
def Op.location : Op → Option Nat
  | .gmul => none
  | .ginv => none
  | .request => none
  | .load off => some off
  | .store off => some off

/-- A value with the operations made for it, first to last. -/
abbrev Counted (α : Type) := α × List Op

/-! ### The single operations -/

/-- A call of gmul. -/
def gmulC (x y : Byte) : Counted Byte := (gmul x y, [.gmul])

/-- A RAM byte read. -/
def State.loadC (s : State) (off : Nat) : Counted Byte := (s.mem.read off, [.load off])

/-- A RAM byte stored. -/
def State.storeC (s : State) (off : Nat) (v : Byte) : Counted State := (s.writeMem off v, [.store off])

/-! ### The functions of the operands -/

/-- ginv (R106). -/
def ginvC (a : Byte) : Counted Byte :=
  let r := forUp 6
    (fun _ r =>
      let q := gmulC r.1 r.1
      let m := gmulC q.1 a
      (m.1, r.2 ++ q.2 ++ m.2))
    (a, [.ginv])
  let q := gmulC r.1 r.1
  (q.1, r.2 ++ q.2)

/-- poly (R120). -/
def State.polyC (s : State) (p : Nat) (x : Byte) : Counted Byte :=
  let y := forDown (s.countK - 1)
    (fun c y =>
      let m := gmulC y.1 x
      let v := s.loadC (coefAddr p c)
      (m.1 ^^^ v.1, y.2 ++ m.2 ++ v.2))
    (0, [])
  let m := gmulC y.1 x
  let v := s.loadC (keyAddr p)
  (m.1 ^^^ v.1, y.2 ++ m.2 ++ v.2)

/-- The products of basis (R123). -/
def State.basisProductsC (s : State) (i n : Nat) : Counted (Byte × Byte) :=
  forUp n
    (fun j nd =>
      if j = i then nd
      else
        let xj := s.loadC (sxAddr j)
        let num := gmulC nd.1.1 xj.1
        let xi := s.loadC (sxAddr i)
        let den := gmulC nd.1.2 (xi.1 ^^^ xj.1)
        ((num.1, den.1), nd.2 ++ xj.2 ++ num.2 ++ xi.2 ++ xj.2 ++ den.2))
    ((1, 1), [])

/-- basis (R123). -/
def State.basisC (s : State) (i : Nat) : Counted Byte :=
  let nd := s.basisProductsC i s.countM
  let v := ginvC nd.1.2
  let m := gmulC nd.1.1 v.1
  (m.1, nd.2 ++ v.2 ++ m.2)

/-- comb (R125), every basis value computed anew. -/
def State.combC (s : State) (p : Nat) : Counted Byte :=
  forUp s.countM
    (fun i acc =>
      let y := s.loadC (syAddr i p)
      let b := s.basisC i
      let m := gmulC y.1 b.1
      (acc.1 ^^^ m.1, acc.2 ++ y.2 ++ b.2 ++ m.2))
    (0, [])

/-! ### The loops of the commands -/

/-- The loop of BSHARE (R122). -/
def State.createByteSharesC (s : State) (p n : Nat) : Counted State :=
  forUp n
    (fun i t =>
      let x := BitVec.ofNat 8 (i + 1)
      let u := t.1.storeC (sxAddr i) x
      let y := u.1.polyC p x
      let v := u.1.storeC (syAddr i p) y.1
      (v.1, t.2 ++ u.2 ++ y.2 ++ v.2))
    (s, [])

/-- One record of KSHARE (R142). -/
def State.createRecordC (s : State) (i : Nat) (x : Byte) : Counted State :=
  forUp 32
    (fun p t =>
      let y := t.1.polyC p x
      let v := t.1.storeC (syAddr i p) y.1
      (v.1, t.2 ++ y.2 ++ v.2))
    (s, [])

/-- The loop of KSHARE and KCREATE (R142, R143). -/
def State.createSharesC (s : State) (n : Nat) : Counted State :=
  forUp n
    (fun i t =>
      let x := BitVec.ofNat 8 (i + 1)
      let u := t.1.storeC (sxAddr i) x
      let v := u.1.createRecordC i x
      (v.1, t.2 ++ u.2 ++ v.2))
    (s, [])

/-- The loop of KCOMB (R144), every basis value computed anew. -/
def State.combineKeyC (s : State) : Counted State :=
  forUp 32
    (fun p t =>
      let y := t.1.combC p
      let v := t.1.storeC (keyAddr p) y.1
      (v.1, t.2 ++ y.2 ++ v.2))
    (s, [])

/-- The zeroising after a fail (R140). -/
def State.zeroCoefsC (s : State) (k : Nat) : Counted State :=
  (drawOrder k).foldl
    (fun t pc =>
      let v := t.1.storeC (coefAddr pc.1 pc.2) 0
      (v.1, t.2 ++ v.2))
    (s, [])

/-- The requests of a draw that are still to be made (R140); none where the core's step does not occur (R65). -/
def State.drawFromC (k : Nat) : List (Nat × Nat) → State → Option (Counted (ErrCode × State))
  | [], s => some ((.ok, s), [])
  | pc :: rest, s =>
    match s.rng with
    | [] => none
    | .fail :: q =>
      let z := { s with rng := q }.zeroCoefsC k
      some ((.randomSourceExhausted, z.1), .request :: z.2)
    | .byte v :: q =>
      let u := { s with rng := q }.storeC (coefAddr pc.1 pc.2) v
      (State.drawFromC k rest u.1).map fun d => (d.1, .request :: (u.2 ++ d.2))

/-- `rngdraw()` (R140). -/
def State.rngdrawC (s : State) : Option (Counted (ErrCode × State)) :=
  State.drawFromC s.countK (drawOrder s.countK) s

/-! ### The commands -/

/-- Every RAM byte, in the order of the loops of ZERO (spec/43_control.md R160). -/
def ramOffsets : List Nat :=
  (List.range 32).map keyAddr ++ (List.range 8128).map coefByteAddr ++ (List.range 8415).map shareByteAddr

/-- The operations of the core's step that executes the command: none where its parameter check fails, and none where the
step does not occur because a random request is unanswered (R65). -/
def State.opsOf (s : State) : Instr → List Op
  | .nop => []
  | .add => []
  | .mul => (gmulC s.a s.b).2
  | .inv => (ginvC s.a).2
  | .eval p => if s.thresholdOk then (s.polyC p s.a).2 else []
  | .bshare p => if s.createOk then (s.createByteSharesC p s.countN).2 else []
  | .basis i => if s.basisOk i then (s.basisC i).2 else []
  | .bcomb p => if s.combineOk then (s.combC p).2 ++ (s.storeC (keyAddr p) (s.combC p).1).2 else []
  | .rngfill =>
    if s.thresholdOk then
      match s.rngdrawC with
      | none => []
      | some d => d.2
    else []
  | .kshare => if s.createOk then (s.createSharesC s.countN).2 else []
  | .kcreate =>
    if s.createOk then
      match s.rngdrawC with
      | none => []
      | some d => if d.1.1 = .ok then d.2 ++ (d.1.2.createSharesC s.countN).2 else d.2
    else []
  | .kcomb => if s.combineOk then s.combineKeyC.2 else []
  | .zero => ramOffsets.map .store

/-- The gmul calls of a command, those inside ginv among them (R212). -/
def State.gmulCalls (s : State) (j : Instr) : Nat := (s.opsOf j).count .gmul

/-- The ginv calls of a command (R129, R212). -/
def State.ginvCalls (s : State) (j : Instr) : Nat := (s.opsOf j).count .ginv

/-- The random requests of a command (R212). -/
def State.requests (s : State) (j : Instr) : Nat := (s.opsOf j).count .request

/-- The RAM locations a command touches, in order (R129). -/
def State.touched (s : State) (j : Instr) : List Nat := (s.opsOf j).filterMap Op.location

end Sys2Proof.Machine
end

