-- ==== Sys2Proof/Machine/HostNotation.lean ====
section
/-! DEFINITION. HostNotation.lean: the host's program notation of spec/30_encoding.md R88 as lists of events. -/

namespace Sys2Proof.Machine

/-- `wr OFF, V`. -/
def wr (off : Nat) (v : Word) : Event := .write .w32 (BitVec.ofNat 15 off) v

/-- `rd OFF`. -/
def rd (off : Nat) : Event := .read .w32 (BitVec.ofNat 15 off)

/-- `param n, k, m`: `wr PARAM, zext_32(m ++ k ++ n)`. -/
def param (n k m : Byte) : Event := wr 0x00C ((m ++ k ++ n).setWidth 32)

/-- A command by its mnemonic and fields: a write of its word to CMD. -/
def issue (i : Instr) : Event := wr 0x004 (encode i)

/-- `wait`: the polling loop on STATUS, as the accesses of a run in which the core's step comes after `n` polls that
read BUSY = 1; the last poll reads BUSY = 0. -/
def waitAfter (n : Nat) : List Event := List.replicate n (rd 0x008) ++ [.core, rd 0x008]

end Sys2Proof.Machine
end

