-- ==== Sys2Proof/Safety.lean ====
section
/-! DEFINITION. Safety.lean: the invariant of the machine, and when a command's random requests are answered. -/

namespace Sys2Proof.Machine

/-- What holds of every state of the core: RAM in its canonical form and inside the RAM windows of
spec/20_memory.md R53; while busy DONE = 0 and ERR = 0 (spec/10_state.md R26, spec/43_control.md R161); CMDLAST is the word in
execution (R30); the core held in reset has its reset clear before it (spec/70_reset_and_hazards.md R200). -/
structure State.Inv (s : State) : Prop where
  memWf : s.mem.wf
  memInRam : ∀ c ∈ s.mem, isRam c.1 = true
  busyDone : s.busy = true → s.done = false ∧ s.err = .ok
  lastWord : ∀ w, s.pend = .cmd w → s.cmdlast = w
  heldInReset : s.rst = true → s.pend = .resetClear

/-- The random source answers `k` further requests, or fails at one of them (spec/20_memory.md R64, R65). -/
def State.answered (s : State) (k : Nat) : Prop :=
  k ≤ s.rng.length ∨ ∃ j, j < k ∧ s.rng[j]? = some .fail

end Sys2Proof.Machine
end

