-- ==== Sys2Proof/Reference.lean ====
section
/-! DEFINITION. Reference.lean: tables and formulas of the spec that the machine does not use, for the statements to
compare the machine with. -/

namespace Sys2Proof.Reference

open Sys2Proof.Machine

/-- The rows of spec/30_encoding.md R84: mnemonic, match, mask. -/
def opcodeRows : List (String × Word × Word) :=
  [("NOP", 0x00000000, 0xFFFFFFFF), ("ADD", 0x00000001, 0xFFFFFFFF), ("MUL", 0x00000002, 0xFFFFFFFF),
   ("INV", 0x00000003, 0xFFFFFFFF), ("EVAL", 0x00000010, 0xFFFFE0FF), ("BSHARE", 0x00000011, 0xFFFFE0FF),
   ("BASIS", 0x00000012, 0xFF00FFFF), ("BCOMB", 0x00000013, 0xFFFFE0FF), ("RNGFILL", 0x00000020, 0xFFFFFFFF),
   ("KSHARE", 0x00000021, 0xFFFFFFFF), ("KCREATE", 0x00000022, 0xFFFFFFFF), ("KCOMB", 0x00000023, 0xFFFFFFFF),
   ("ZERO", 0x00000030, 0xFFFFFFFF)]

/-- The word matches a row of R84. -/
def legalWord (w : Word) : Prop := ∃ row ∈ opcodeRows, w &&& row.2.2 = row.2.1

/-- When a command fails with InvalidParameters: the table of spec/60_exceptions.md R184. -/
def parameterFault (s : State) : Instr → Prop
  | .nop => False
  | .add => False
  | .mul => False
  | .inv => False
  | .zero => False
  | .eval _ => s.paramK = 0
  | .bshare _ => s.paramK = 0 ∨ s.paramN = 0 ∨ s.paramN.toNat < s.paramK.toNat
  | .kshare => s.paramK = 0 ∨ s.paramN = 0 ∨ s.paramN.toNat < s.paramK.toNat
  | .kcreate => s.paramK = 0 ∨ s.paramN = 0 ∨ s.paramN.toNat < s.paramK.toNat
  | .rngfill => s.paramK = 0
  | .basis i => s.paramM = 0 ∨ s.paramM.toNat ≤ i
  | .bcomb _ => s.paramM = 0
  | .kcomb => s.paramM = 0

/-- `a^n` by n field products (spec/00_scope.md R9: the empty product is 0x01). -/
def gpow (a : Byte) : Nat → Byte
  | 0 => 1
  | n + 1 => gmul (gpow a n) a

/-- The XOR of f 0, ..., f (n-1) (R9: the empty XOR is 0x00). -/
def xorSum (f : Nat → Byte) : Nat → Byte
  | 0 => 0
  | n + 1 => xorSum f n ^^^ f n

/-- The field product of f over a list of indices. -/
def gprod (f : Nat → Byte) : List Nat → Byte
  | [] => 1
  | j :: l => gmul (f j) (gprod f l)

/-- The share polynomial as spec/41_byte_sharing.md R120 writes it:
`KEY[p] ⊕ gmul(C(p,1), x) ⊕ ... ⊕ gmul(C(p,K-1), x^(K-1))`. -/
def sharePolynomial (s : State) (p : Nat) (x : Byte) : Byte :=
  s.key p ^^^ xorSum (fun j => gmul (s.coef p (j + 1)) (gpow x (j + 1))) (s.countK - 1)

/-- The offsets of the RAM windows (spec/20_memory.md R53). -/
def inKey (a : Nat) : Prop := 0x100 ≤ a ∧ a ≤ 0x11F

def inCoef (a : Nat) : Prop := 0x1000 ≤ a ∧ a ≤ 0x2FBF

def inShareWindow (a : Nat) : Prop := 0x4000 ≤ a ∧ a ≤ 0x60DE

/-- `s` after a command has completed with code e and done nothing else (spec/60_exceptions.md R182). -/
def completed (s : State) (e : ErrCode) : State := { s with err := e, done := true, pend := .none }

/-- The core has the turn: no event is waiting, or the first is the core's (log entry 1); `rest` is what then waits. -/
def coreMoves (s : State) (rest : List Event) : Prop :=
  (s.events = [] ∧ rest = []) ∨ s.events = .core :: rest

/-- A latched word that makes random requests: RNGFILL, and KCREATE past its check (spec/42_key_sharing.md R141, R143). -/
def drawsBytes (s : State) (w : Word) : Prop :=
  w = 0x00000020 ∨ (w = 0x00000022 ∧ s.countK ≤ s.countN)

/-- Which of the coming answers fail: all that the operations of a draw may depend on (spec/42_key_sharing.md R140). -/
def answerFails (s : State) : List Bool := s.rng.map fun x => decide (x = .fail)

end Sys2Proof.Reference
end

