-- ==== Sys2Proof/Certificates/Slice0/Obligations.lean ====
section
/-! DEFINITION. Obligations.lean: the statements about the machine, from the numbered rules of the spec. -/

open Sys2Proof Sys2Proof.Machine Sys2Proof.Reference

/-! ### Encoding -/

/-- R89: the words of `eval 5`, `bshare 31`, `bcomb 0`, `basis 2` and `param 3, 2, 0`, and that the decoder reads the four
command words as those commands. -/
def Obligations.NotationWordsDecode : Prop :=
  issue (.eval 5) = .write .w32 0x004 0x00000510 ∧ decode 0x00000510 = some (.eval 5) ∧
  issue (.bshare 31) = .write .w32 0x004 0x00001F11 ∧ decode 0x00001F11 = some (.bshare 31) ∧
  issue (.bcomb 0) = .write .w32 0x004 0x00000013 ∧ decode 0x00000013 = some (.bcomb 0) ∧
  issue (.basis 2) = .write .w32 0x004 0x00020012 ∧ decode 0x00020012 = some (.basis 2) ∧
  param 3 2 0 = .write .w32 0x00C 0x00000203

/-- R84: a word selects a mnemonic exactly when it has the row's match bits under the row's mask, and at most one row
matches any word. -/
def Obligations.RowsSelectCommands : Prop :=
  (∀ row ∈ opcodeRows, ∀ w : Word,
    (∃ i, decode w = some i ∧ i.mnemonic = row.1) ↔ w &&& row.2.2 = row.2.1) ∧
  ∀ row ∈ opcodeRows, ∀ row' ∈ opcodeRows, ∀ w : Word,
    w &&& row.2.2 = row.2.1 → w &&& row'.2.2 = row'.2.1 → row = row'

/-- Decoding the word of any well-formed command, with every operand at every value its field admits, gives it back. -/
def Obligations.DecodeInvertsEncode : Prop :=
  ∀ i : Instr, i.wellFormed = true → decode (encode i) = some i

/-- R86: a word that decodes is the word of the one well-formed command it decodes to. -/
def Obligations.EncodeInvertsDecode : Prop :=
  ∀ (w : Word) (i : Instr), decode w = some i → i.wellFormed = true ∧ encode i = w

/-- R183, R85: IllegalCommand is the code exactly of the words that match no row, which change nothing else; the
hypothesis on ERR is what acceptance leaves (R161). -/
def Obligations.IllegalCommandExactly : Prop :=
  ∀ (w : Word) (s : State),
    (¬ legalWord w → executeWord w s = .next (completed s .illegalCommand)) ∧
    (legalWord w → s.err = .ok → ∀ t, executeWord w s = .next t → t.err ≠ .illegalCommand)

/-! ### The step -/

/-- R163, R164, R183: when the core has the turn with a latched word, the step is execute of that word: exec of the command
it decodes to, and IllegalCommand alone for a word that decodes to none. The core's event is taken from the arrivals if
it stands there; that the core has the turn when no event waits is the model's choice (log entry 1). -/
def Obligations.StepRunsLatchedCommand : Prop :=
  ∀ (s : State) (w : Word) (rest : List Event), s.pend = .cmd w → s.rst = false → coreMoves s rest →
    step s = executeWord w { s with events := rest } ∧
    (∀ i, decode w = some i → step s = exec i { s with events := rest }) ∧
    (decode w = none → step s = .next (completed { s with events := rest } .illegalCommand))

/-- R163, R196: an idle core has no step. That the model's turn then answers the state unchanged is the model's choice
(log entry 1). -/
def Obligations.IdleCoreHoldsState : Prop :=
  ∀ s : State, s.pend = .none →
    (s.events = [] → step s = .next s) ∧
    (∀ rest, s.events = .core :: rest → step s = .next { s with events := rest })

/-- R161: a write to CMD while BUSY = 0 accepts any word, and one while BUSY = 1 is dropped. -/
def Obligations.AcceptanceLatchesAnyWord : Prop :=
  ∀ (s : State) (w : Word) (rest : List Event), s.rst = false → s.events = .write .w32 0x004 w :: rest →
    (s.busy = false →
      step s = .next { s with events := rest, cmdlast := w, pend := .cmd w, done := false, err := .ok }) ∧
    (s.busy = true → step s = .next { s with events := rest, wbusy := true }) ∧
    (∀ t, step s = .next t → t.busy = true)

/-- R182, R190, R211: every accepted word completes in one step of the core, where its random requests, if it makes any, are
answered: DONE = 1, BUSY = 0, CMDLAST and WBUSY kept. At most 32*(K-1) answers are used, or those up to the first fail
(R140). -/
def Obligations.AnsweredCommandCompletes : Prop :=
  ∀ (s : State) (w : Word) (rest : List Event), s.pend = .cmd w → s.rst = false → coreMoves s rest →
    (drawsBytes s w → s.answered (32 * (s.countK - 1))) →
    ∃ t, step s = .next t ∧ t.pend = .none ∧ t.busy = false ∧ t.done = true ∧ t.wbusy = s.wbusy ∧
      t.cmdlast = s.cmdlast ∧ t.events = rest

/-- R64, R65: an answer of the source is the last of those to come, and changes nothing else; while the source has not
answered a request of RNGFILL or KCREATE, no turn of the core and no access of the host ends the command: PEND, the RAMs
and the answers stay. That the core's turn answers the state unchanged is the model's form of a step that does not occur
(log entry 3), and the list of answers is the model's form of the oracle (log entry 4). -/
def Obligations.UnansweredRequestStalls : Prop :=
  (∀ (s : State) (x : RngAnswer) (rest : List Event), s.rst = false → s.events = .answer x :: rest →
    step s = .next { s with events := rest, rng := s.rng ++ [x] }) ∧
  ∀ (s : State) (bs : List Byte), s.rst = false → s.rng = bs.map .byte → bs.length < 32 * (s.countK - 1) →
    (s.pend = .cmd 0x00000020 ∨ (s.pend = .cmd 0x00000022 ∧ s.countK ≤ s.countN)) →
    (s.events = [] → step s = .next s) ∧
    (∀ e rest, s.events = e :: rest → (∀ a, e ≠ .answer a) → e ≠ .rstAssert → e ≠ .rstRelease →
      ∀ t, step s = .next t →
        t.pend = s.pend ∧ t.busy = true ∧ t.mem = s.mem ∧ t.rng = s.rng ∧
        (e = .core → t = { s with events := rest }))

/-- R51, R180, R186: no command traps, and the machine stops only at a host access that is not 32 bits wide at a
multiple of 4, and at each such access. Ending the run there is the model's form of the bus error (log entry 8). -/
def Obligations.OnlyBusErrorsStop : Prop :=
  ∀ s : State,
    (∀ i, ∃ t, exec i s = .next t) ∧ (∀ w, ∃ t, executeWord w s = .next t) ∧
    (∀ r, step s ≠ .refused r) ∧
    (step s = .fault .busError ↔
      ∃ (width : Width) (off : BitVec 15) (rest : List Event), (width ≠ .w32 ∨ off.toNat % 4 ≠ 0) ∧
        (s.events = .read width off :: rest ∨ ∃ v, s.events = .write width off v :: rest))

/-! ### Field arithmetic -/

/-- R101. -/
def Obligations.NopOnlyCompletes : Prop :=
  decode 0x00000000 = some .nop ∧
  (∀ w : Word, w.extractLsb' 0 8 = 0 → w ≠ 0 → decode w = none) ∧
  (∀ s : State, exec .nop s = .next { s with err := .ok, done := true, pend := .none }) ∧
  (∀ s : State, (s.accept 0x00000000).done = false) ∧
  ∃ t, exec .nop (State.reset.resetClear.accept 0) = .next t ∧ t.statusWord = 0x00000002

/-- R102. -/
def Obligations.AddWritesXor : Prop :=
  decode 0x00000001 = some .add ∧
  (∀ s : State,
    exec .add s = .next { s with r := s.a ^^^ s.b, err := .ok, done := true, pend := .none } ∧
    (s.a = s.b → ∃ t, exec .add s = .next t ∧ t.r = 0x00) ∧
    (s.b = 0x00 → ∃ t, exec .add s = .next t ∧ t.r = s.a) ∧
    (s.a = 0x57 → s.b = 0x83 → ∃ t, exec .add s = .next t ∧ t.r = 0xD4))

/-- R105. -/
def Obligations.MulWritesFieldProduct : Prop :=
  decode 0x00000002 = some .mul ∧
  (∀ s : State,
    exec .mul s = .next { s with r := gmul s.a s.b, err := .ok, done := true, pend := .none } ∧
    (s.a = 0x00 ∨ s.b = 0x00 → ∃ t, exec .mul s = .next t ∧ t.r = 0x00) ∧
    (s.b = 0x01 → ∃ t, exec .mul s = .next t ∧ t.r = s.a) ∧
    (s.a = 0x80 → s.b = 0x02 → ∃ t, exec .mul s = .next t ∧ t.r = 0x1B) ∧
    (s.a = 0xFF → s.b = 0xFF → ∃ t, exec .mul s = .next t ∧ t.r = 0x13) ∧
    (s.a = 0x57 → s.b = 0x83 → ∃ t, exec .mul s = .next t ∧ t.r = 0xC1))

/-- R108. -/
def Obligations.InvWritesFieldInverse : Prop :=
  decode 0x00000003 = some .inv ∧
  (∀ s : State,
    exec .inv s = .next { s with r := ginv s.a, err := .ok, done := true, pend := .none } ∧
    (s.a = 0x00 → ∃ t, exec .inv s = .next t ∧ t.r = 0x00 ∧ t.err = .ok) ∧
    (s.a = 0x01 → ∃ t, exec .inv s = .next t ∧ t.r = 0x01) ∧
    (s.a = 0x02 → ∃ t, exec .inv s = .next t ∧ t.r = 0x8D) ∧
    (s.a = 0xFF → ∃ t, exec .inv s = .next t ∧ t.r = 0x1C) ∧
    (s.a = 0x53 → ∃ t, exec .inv s = .next t ∧ t.r = 0xCA))

/-- R100: with a byte read as a polynomial over GF(2), XOR is addition and gmul is multiplication modulo
x^8+x^4+x^3+x+1. -/
def Obligations.GmulIsPolynomialProduct : Prop :=
  let polyOf : Byte → Polynomial (ZMod 2) :=
    fun v => ∑ i ∈ Finset.range 8, if v.getLsbD i then Polynomial.X ^ i else 0
  let reduction : Polynomial (ZMod 2) :=
    Polynomial.X ^ 8 + Polynomial.X ^ 4 + Polynomial.X ^ 3 + Polynomial.X + 1
  ∀ a b : Byte, polyOf (a ^^^ b) = polyOf a + polyOf b ∧ reduction ∣ polyOf (gmul a b) - polyOf a * polyOf b

/-- R104. -/
def Obligations.GmulFieldLaws : Prop :=
  ∀ a b c : Byte,
    gmul a b = gmul b a ∧
    gmul a (gmul b c) = gmul (gmul a b) c ∧
    gmul a (b ^^^ c) = gmul a b ^^^ gmul a c ∧
    gmul a 0x01 = a ∧
    gmul a 0x00 = 0x00 ∧
    (gmul a b = 0x00 → a = 0x00 ∨ b = 0x00) ∧
    gmul a 0x02 = (a <<< 1) ^^^ (if a.getLsbD 7 then 0x1B else 0x00)

/-- R107, with what its reason cites: the chain of R106 computes a^254, and a^255 = 1 for every nonzero a (R100). -/
def Obligations.GinvInverts : Prop :=
  (∀ a : Byte, a ≠ 0x00 → gmul (ginv a) a = 0x01) ∧ ginv 0x00 = 0x00 ∧
  (∀ a : Byte, ginv (ginv a) = a) ∧ ginv 0x01 = 0x01 ∧
  ∀ a : Byte, ginv a = gpow a 254 ∧ (a ≠ 0x00 → gpow a 255 = 0x01)

/-! ### Byte sharing -/

/-- R120: Horner's rule gives the value of the share polynomial, with exactly K field products. The products are counted on
the model's counted copy of poly (log entry 12). -/
def Obligations.HornerEvaluatesSharePolynomial : Prop :=
  ∀ (s : State) (p : Nat) (x : Byte), 1 ≤ s.countK →
    s.poly p x = sharePolynomial s p x ∧ (s.polyC p x).2.count .gmul = s.countK ∧ (s.polyC p x).1 = s.poly p x

/-- R121. -/
def Obligations.EvalWritesPolynomialValue : Prop :=
  ∀ p : Nat, p < 32 →
    decode (0x00000010 ||| BitVec.ofNat 32 p <<< 8) = some (.eval p) ∧
    ∀ s : State,
      (s.countK = 0 → exec (.eval p) s = .next (completed s .invalidParameters)) ∧
      (s.countK ≠ 0 →
        exec (.eval p) s = .next { s with r := s.poly p s.a, err := .ok, done := true, pend := .none }) ∧
      (s.countK = 1 → s.poly p s.a = s.key p) ∧
      s.poly p 0x00 = s.key p ∧
      s.poly p 0x01 = s.key p ^^^ xorSum (fun j => s.coef p (j + 1)) (s.countK - 1) ∧
      (s.countK = 3 → s.key 0 = 0x42 → s.coef 0 1 = 0x17 → s.coef 0 2 = 0x55 → s.a = 0x02 →
        ∃ t, exec (.eval 0) s = .next t ∧ t.r = 0x23)

/-- R122: BSHARE p writes the points (i+1, poly(p, i+1)) of records 0..N-1 at position p and no other byte; with K = 0,
N = 0 or K > N it writes nothing. The values of the example are stated of poly. -/
def Obligations.BshareWritesPoints : Prop :=
  ∀ (s : State) (p : Nat), p < 32 → s.mem.wf →
    decode (0x00000011 ||| BitVec.ofNat 32 p <<< 8) = some (.bshare p) ∧
    (s.countK = 3 → s.key 0 = 0x42 → s.coef 0 1 = 0x17 → s.coef 0 2 = 0x55 →
      s.poly 0 1 = 0x00 ∧ s.poly 0 2 = 0x23 ∧ s.poly 0 3 = 0x61 ∧ s.poly 0 4 = 0x39 ∧ s.poly 0 5 = 0x7B) ∧
    (¬ (1 ≤ s.countK ∧ s.countK ≤ s.countN) →
      exec (.bshare p) s = .next (completed s .invalidParameters)) ∧
    (1 ≤ s.countK ∧ s.countK ≤ s.countN →
      ∃ t, exec (.bshare p) s = .next t ∧
        t = { s with mem := t.mem, err := .ok, done := true, pend := .none } ∧
        (∀ i, i < s.countN →
          t.sx i = BitVec.ofNat 8 (i + 1) ∧ t.sx i ≠ 0x00 ∧ t.sy i p = s.poly p (BitVec.ofNat 8 (i + 1)) ∧
          (s.countK = 1 → t.sy i p = s.key p)) ∧
        ∀ a, (∀ i, i < s.countN → a ≠ sxAddr i ∧ a ≠ syAddr i p) → t.mem.read a = s.mem.read a)

/-- R123: basis(i) is the product of the other x-values times the inverse of the product of the differences, in any
order of the factors. -/
def Obligations.BasisIsLagrangeQuotient : Prop :=
  ∀ (s : State) (i : Nat) (order : List Nat), i < s.countM →
    order.Perm ((List.range s.countM).filter fun j => j ≠ i) →
    s.basis i = gmul (gprod s.sx order) (ginv (gprod (fun j => s.sx i ^^^ s.sx j) order))

/-- R124. -/
def Obligations.BasisWritesBasisValue : Prop :=
  (∀ i, i < 256 → decode (0x00000012 ||| BitVec.ofNat 32 i <<< 16) = some (.basis i)) ∧
  ∀ (s : State) (i : Nat),
    (s.countM = 0 ∨ s.countM ≤ i → exec (.basis i) s = .next (completed s .invalidParameters)) ∧
    (s.countM ≠ 0 ∧ i < s.countM →
      exec (.basis i) s = .next { s with r := s.basis i, err := .ok, done := true, pend := .none }) ∧
    (s.countM = 1 → s.basis 0 = 0x01) ∧
    (s.countM = 3 → s.sx 0 = 2 → s.sx 1 = 4 → s.sx 2 = 5 →
      s.basis 0 = 0xD0 ∧ s.basis 1 = 0x03 ∧ s.basis 2 = 0xD2)

/-- R125, R126: BCOMB p writes KEY[p] = comb(p), the XOR of the contributions, and no other byte; with M = 0 it writes
nothing; the x-values are not checked. -/
def Obligations.BcombWritesCombinedByte : Prop :=
  ∀ (s : State) (p : Nat), p < 32 → s.mem.wf →
    decode (0x00000013 ||| BitVec.ofNat 32 p <<< 8) = some (.bcomb p) ∧
    (s.countM = 0 → exec (.bcomb p) s = .next (completed s .invalidParameters)) ∧
    (s.countM ≠ 0 →
      ∃ t, exec (.bcomb p) s = .next t ∧
        t = { s with mem := t.mem, err := .ok, done := true, pend := .none } ∧
        t.key p = xorSum (fun i => gmul (s.sy i p) (s.basis i)) s.countM ∧
        (s.countM = 1 → t.key p = s.sy 0 p) ∧
        ∀ a, a ≠ keyAddr p → t.mem.read a = s.mem.read a)

/-- R128: two equal x-values give basis value 0x00 at both points, and a zero x-value at record j gives 0x00 at every
other point. -/
def Obligations.DegeneratePointsGiveZeroBasis : Prop :=
  ∀ (s : State) (i j : Nat), i < s.countM → j < s.countM → i ≠ j →
    (s.sx i = s.sx j → s.basis i = 0x00 ∧ s.basis j = 0x00) ∧ (s.sx j = 0x00 → s.basis i = 0x00)

/-- R127: M >= K points with distinct nonzero x-values on one share polynomial of threshold K combine to its constant
term, the key byte at creation, in whatever record order. -/
def Obligations.CombineRecoversSecretByte : Prop :=
  ∀ (s t : State) (p : Nat), 1 ≤ s.countK → s.countK ≤ t.countM →
    (∀ i, i < t.countM → t.sx i ≠ 0x00 ∧ t.sy i p = s.poly p (t.sx i)) →
    (∀ i j, i < t.countM → j < t.countM → t.sx i = t.sx j → i = j) →
    t.comb p = s.key p

/-! ### Key sharing -/

/-- R140, R141: RNGFILL with every request answered: exactly 32*(K-1) answers are used, the answer
t = p*(K-1) + (c-1) fills C(p, c), and nothing else changes; K = 0 makes no request. -/
def Obligations.RngfillDrawsCoefficients : Prop :=
  ∀ s : State, s.mem.wf →
    (s.countK = 0 → exec .rngfill s = .next (completed s .invalidParameters)) ∧
    (∀ (bs : List Byte) (q : List RngAnswer), s.countK ≠ 0 → bs.length = 32 * (s.countK - 1) →
      s.rng = bs.map .byte ++ q →
      ∃ t, exec .rngfill s = .next t ∧
        t = { s with mem := t.mem, rng := q, err := .ok, done := true, pend := .none } ∧
        (∀ p c, p < 32 → 1 ≤ c → c < s.countK → bs[p * (s.countK - 1) + (c - 1)]? = some (t.coef p c)) ∧
        ∀ a, (∀ p c, p < 32 → 1 ≤ c → c < s.countK → a ≠ coefAddr p c) → t.mem.read a = s.mem.read a)

/-- R140, R165, R185: a fail at any request of RNGFILL or KCREATE zeroises the whole range of the draw, writes no other
byte, makes no further request and reports RandomSourceExhausted. -/
def Obligations.FailedDrawZeroisesRange : Prop :=
  ∀ (s : State) (bs : List Byte) (q : List RngAnswer) (i : Instr), s.mem.wf →
    bs.length < 32 * (s.countK - 1) → s.rng = bs.map .byte ++ .fail :: q →
    (i = .rngfill ∨ (i = .kcreate ∧ s.countK ≤ s.countN)) →
    ∃ t, exec i s = .next t ∧
      t = { s with mem := t.mem, rng := q, err := .randomSourceExhausted, done := true, pend := .none } ∧
      (∀ p c, p < 32 → 1 ≤ c → c < s.countK → t.coef p c = 0x00) ∧
      ∀ a, (∀ p c, p < 32 → 1 ≤ c → c < s.countK → a ≠ coefAddr p c) → t.mem.read a = s.mem.read a

/-- R142: KSHARE writes records 0..N-1 whole, x = i+1 and the 32 y bytes poly(p, i+1), and no other byte. -/
def Obligations.KshareWritesRecords : Prop :=
  ∀ s : State, s.mem.wf →
    (¬ (1 ≤ s.countK ∧ s.countK ≤ s.countN) → exec .kshare s = .next (completed s .invalidParameters)) ∧
    (1 ≤ s.countK ∧ s.countK ≤ s.countN →
      ∃ t, exec .kshare s = .next t ∧
        t = { s with mem := t.mem, err := .ok, done := true, pend := .none } ∧
        (∀ i, i < s.countN → t.sx i = BitVec.ofNat 8 (i + 1) ∧
          ∀ p, p < 32 → t.sy i p = s.poly p (BitVec.ofNat 8 (i + 1)) ∧ (s.countK = 1 → t.sy i p = s.key p)) ∧
        ∀ a, (∀ i, i < s.countN → a ≠ sxAddr i ∧ ∀ p, p < 32 → a ≠ syAddr i p) →
          t.mem.read a = s.mem.read a)

/-- R143: KCREATE with every request answered draws the coefficients in the order of R140 and then writes records 0..N-1
from them; an invalid PARAM uses no answer and writes nothing. -/
def Obligations.KcreateDrawsAndShares : Prop :=
  ∀ s : State, s.mem.wf →
    (¬ (1 ≤ s.countK ∧ s.countK ≤ s.countN) → exec .kcreate s = .next (completed s .invalidParameters)) ∧
    (∀ (bs : List Byte) (q : List RngAnswer), 1 ≤ s.countK ∧ s.countK ≤ s.countN →
      bs.length = 32 * (s.countK - 1) → s.rng = bs.map .byte ++ q →
      ∃ t, exec .kcreate s = .next t ∧
        t = { s with mem := t.mem, rng := q, err := .ok, done := true, pend := .none } ∧
        (∀ p c, p < 32 → 1 ≤ c → c < s.countK → bs[p * (s.countK - 1) + (c - 1)]? = some (t.coef p c)) ∧
        (∀ p, p < 32 → t.key p = s.key p) ∧
        (∀ i, i < s.countN → t.sx i = BitVec.ofNat 8 (i + 1) ∧
          ∀ p, p < 32 → t.sy i p = t.poly p (BitVec.ofNat 8 (i + 1))) ∧
        ∀ a, (∀ p c, p < 32 → 1 ≤ c → c < s.countK → a ≠ coefAddr p c) →
          (∀ i, i < s.countN → a ≠ sxAddr i ∧ ∀ p, p < 32 → a ≠ syAddr i p) →
          t.mem.read a = s.mem.read a)

/-- R144: KCOMB writes KEY[p] = comb(p) for the 32 positions and no other byte; with M = 0 it writes nothing. -/
def Obligations.KcombWritesKey : Prop :=
  ∀ s : State, s.mem.wf →
    (s.countM = 0 → exec .kcomb s = .next (completed s .invalidParameters)) ∧
    (s.countM ≠ 0 →
      ∃ t, exec .kcomb s = .next t ∧
        t = { s with mem := t.mem, err := .ok, done := true, pend := .none } ∧
        (∀ p, p < 32 → t.key p = s.comb p ∧ (s.countM = 1 → t.key p = s.sy 0 p)) ∧
        ∀ a, (∀ p, p < 32 → a ≠ keyAddr p) → t.mem.read a = s.mem.read a)

/-- R145: KSHARE, or KCREATE with ERR = 0, then any M >= K of the N records placed whole in records 0..M-1, then KCOMB
gives back the key. -/
def Obligations.KeyRoundTrip : Prop :=
  ∀ (s t u : State) (i : Instr) (pick : Nat → Nat), s.mem.wf → u.mem.wf →
    (i = .kshare ∨ i = .kcreate) → s.pend ≠ .none → exec i s = .next t → t.pend = .none → t.err = .ok →
    s.countK ≤ u.countM →
    (∀ m, m < u.countM → pick m < s.countN) →
    (∀ m m', m < u.countM → m' < u.countM → pick m = pick m' → m = m') →
    (∀ m j, m < u.countM → j < 33 →
      u.mem.read (shareByteAddr (33 * m + j)) = t.mem.read (shareByteAddr (33 * pick m + j))) →
    ∃ v, exec .kcomb u = .next v ∧ v.err = .ok ∧ ∀ p, p < 32 → v.key p = s.key p

/-! ### ZERO, errors, frames over all commands -/

/-- R160: ZERO clears A, B, R and every byte of KEY, COEF and SHARE, whatever the state, and nothing else. -/
def Obligations.ZeroClearsSecrets : Prop :=
  decode 0x00000030 = some .zero ∧
  ∀ s : State, ∃ t, exec .zero s = .next t ∧
    t = { s with a := 0x00, b := 0x00, r := 0x00, mem := t.mem, err := .ok, done := true, pend := .none } ∧
    ∀ a, t.mem.read a = 0x00

/-- R184: a command reports InvalidParameters exactly in the cases of the table, and then nothing else changes; ERR = 0 at
the start is what acceptance leaves (R161). -/
def Obligations.ParameterChecksAsTabled : Prop :=
  ∀ (s : State) (i : Instr), s.err = .ok →
    (parameterFault s i → exec i s = .next (completed s .invalidParameters)) ∧
    (¬ parameterFault s i → ∀ t, exec i s = .next t → t.err ≠ .invalidParameters)

/-- R165: a command that completes with ERR = 1 or 2 changes STATUS alone; one that completes with ERR = 3 zeroises the
COEF range of its draw and changes nothing else of the core. -/
def Obligations.FailedCommandKeepsState : Prop :=
  ∀ (w : Word) (s t : State), s.mem.wf → s.err = .ok → executeWord w s = .next t →
    (t.err = .illegalCommand ∨ t.err = .invalidParameters → t = completed s t.err) ∧
    (t.err = .randomSourceExhausted →
      t = { s with mem := t.mem, rng := t.rng, err := t.err, done := true, pend := .none } ∧
      (∀ p c, p < 32 → 1 ≤ c → c < s.countK → t.coef p c = 0x00) ∧
      ∀ a, (∀ p c, p < 32 → 1 ≤ c → c < s.countK → a ≠ coefAddr p c) → t.mem.read a = s.mem.read a)

/-- R185: only RNGFILL and KCREATE report RandomSourceExhausted, and only where the source answers fail. -/
def Obligations.OnlyDrawsExhaustSource : Prop :=
  ∀ (s t : State) (i : Instr), s.err = .ok → exec i s = .next t → t.err = .randomSourceExhausted →
    (i = .rngfill ∨ i = .kcreate) ∧
    ∃ (bs : List Byte) (q : List RngAnswer), bs.length < 32 * (s.countK - 1) ∧ s.rng = bs.map .byte ++ .fail :: q

/-- The frame over all commands: PARAM, IRQEN, CMDLAST, WBUSY and the inputs stay but for the answers a draw uses; A and B
change only by ZERO, and R only by ADD, MUL, INV, EVAL, BASIS and ZERO (R21, R160). -/
def Obligations.CommandsKeepOtherRegisters : Prop :=
  ∀ (i : Instr) (s t : State), exec i s = .next t →
    t.paramN = s.paramN ∧ t.paramK = s.paramK ∧ t.paramM = s.paramM ∧ t.ie = s.ie ∧ t.cmdlast = s.cmdlast ∧
    t.wbusy = s.wbusy ∧ t.rst = s.rst ∧ t.events = s.events ∧ t.hostReads = s.hostReads ∧
    t.freeCount = s.freeCount ∧
    (i ≠ .rngfill → i ≠ .kcreate → t.rng = s.rng) ∧
    (i ≠ .zero → t.a = s.a ∧ t.b = s.b) ∧
    (i ≠ .add → i ≠ .mul → i ≠ .inv → (∀ p, i ≠ .eval p) → (∀ j, i ≠ .basis j) → i ≠ .zero → t.r = s.r)

/-- The memory frame over all commands: KEY changes only by BCOMB, KCOMB and ZERO, COEF only by RNGFILL, KCREATE and ZERO,
SHARE only by BSHARE, KSHARE, KCREATE and ZERO. -/
def Obligations.CommandsKeepOtherWindows : Prop :=
  ∀ (i : Instr) (s t : State), i.wellFormed = true → exec i s = .next t → i ≠ .zero →
    ((∀ p, i ≠ .bcomb p) → i ≠ .kcomb → ∀ a, inKey a → t.mem.read a = s.mem.read a) ∧
    (i ≠ .rngfill → i ≠ .kcreate → ∀ a, inCoef a → t.mem.read a = s.mem.read a) ∧
    ((∀ p, i ≠ .bshare p) → i ≠ .kshare → i ≠ .kcreate →
      ∀ a, inShareWindow a → t.mem.read a = s.mem.read a)

/-- R212: the operation counts of the commands: functions of N, K and M alone (R129). The counts are of the model's counted
copies (log entry 12), each of which has the value of the machine's function. -/
def Obligations.OperationCountsArePublic : Prop :=
  (∀ x y : Byte, (gmulC x y).1 = gmul x y ∧ (ginvC x).1 = ginv x) ∧
  ∀ (s : State) (p i n : Nat) (x : Byte),
    (s.polyC p x).1 = s.poly p x ∧ (s.basisC i).1 = s.basis i ∧ (s.combC p).1 = s.comb p ∧
    (s.createByteSharesC p n).1 = s.createByteShares p n ∧ (s.createSharesC n).1 = s.createShares n ∧
    s.combineKeyC.1 = s.combineKey ∧ s.rngdrawC.map Prod.fst = s.rngdraw ∧
    s.gmulCalls .nop = 0 ∧ s.gmulCalls .add = 0 ∧ s.gmulCalls .zero = 0 ∧ s.gmulCalls .rngfill = 0 ∧
    s.gmulCalls .mul = 1 ∧ s.gmulCalls .inv = 13 ∧ s.ginvCalls .inv = 1 ∧
    (1 ≤ s.countK → s.gmulCalls (.eval p) = s.countK) ∧
    (1 ≤ s.countK → s.countK ≤ s.countN →
      s.gmulCalls (.bshare p) = s.countN * s.countK ∧ s.gmulCalls .kshare = 32 * s.countN * s.countK) ∧
    (i < s.countM → s.gmulCalls (.basis i) = 2 * s.countM + 12 ∧ s.ginvCalls (.basis i) = 1) ∧
    s.gmulCalls (.bcomb p) = s.countM * (2 * s.countM + 13) ∧ s.ginvCalls (.bcomb p) = s.countM ∧
    s.gmulCalls .kcomb = 32 * s.countM * (2 * s.countM + 13) ∧ s.ginvCalls .kcomb = 32 * s.countM ∧
    (∀ t, s.rngdraw = some (.ok, t) →
      (1 ≤ s.countK → s.requests .rngfill = 32 * (s.countK - 1)) ∧
      (1 ≤ s.countK → s.countK ≤ s.countN →
        s.requests .kcreate = 32 * (s.countK - 1) ∧ s.gmulCalls .kcreate = 32 * s.countN * s.countK)) ∧
    ∀ j, (j ≠ .rngfill → j ≠ .kcreate → s.requests j = 0) ∧
      (j ≠ .inv → (∀ k, j ≠ .basis k) → (∀ q, j ≠ .bcomb q) → j ≠ .kcomb → s.ginvCalls j = 0)

/-! ### The bus -/

/-- R55: what each offset reads as while BUSY = 0; the bytes of a RAM word are in the lanes of R52. And the layouts of R31,
R32 and R33 in window offsets: where KEY[p], C(p, c), SX(i) and SY(i, p) stand. -/
def Obligations.IdleReadValues : Prop :=
  (∀ (s : State) (p c i : Nat), p < 32 → 1 ≤ c → c ≤ 254 → i < 255 →
    keyAddr p = 0x100 + p ∧ s.key p = s.mem.read (0x100 + p) ∧
    coefAddr p c = 0x1000 + p * 254 + c - 1 ∧ s.coef p c = s.mem.read (0x1000 + p * 254 + c - 1) ∧
    sxAddr i = 0x4000 + 33 * i ∧ s.sx i = s.mem.read (0x4000 + 33 * i) ∧
    syAddr i p = 0x4000 + 33 * i + 1 + p ∧ s.sy i p = s.mem.read (0x4000 + 33 * i + 1 + p)) ∧
  ∀ s : State, s.busy = false →
    s.busRead 0x000 = 0x53535301 ∧
    s.busRead 0x004 = 0x00000000 ∧
    s.busRead 0x008
      = (s.err.code ++ 0#1 ++ BitVec.ofBool s.wbusy ++ BitVec.ofBool s.done ++ 0#1).setWidth 32 ∧
    s.busRead 0x00C = (s.paramM ++ s.paramK ++ s.paramN).setWidth 32 ∧
    s.busRead 0x010 = s.a.setWidth 32 ∧
    s.busRead 0x014 = s.b.setWidth 32 ∧
    s.busRead 0x018 = s.r.setWidth 32 ∧
    s.busRead 0x01C = (BitVec.ofBool s.ie).setWidth 32 ∧
    s.busRead 0x020 = s.cmdlast ∧
    (∀ (off : BitVec 15) (l : Nat), off.toNat % 4 = 0 → l < 4 →
      (0x100 ≤ off.toNat → off.toNat ≤ 0x11C →
        (s.busRead off).extractLsb' (8 * l) 8 = s.mem.read (off.toNat + l)) ∧
      (0x1000 ≤ off.toNat → off.toNat ≤ 0x2FBC →
        (s.busRead off).extractLsb' (8 * l) 8 = s.mem.read (off.toNat + l)) ∧
      (0x4000 ≤ off.toNat → off.toNat ≤ 0x60DC →
        (s.busRead off).extractLsb' (8 * l) 8
          = if off.toNat + l ≠ 0x60DF then s.mem.read (off.toNat + l) else 0x00)) ∧
    (∀ off : BitVec 15, off.toNat % 4 = 0 →
      (0x024 ≤ off.toNat ∧ off.toNat < 0x100) ∨ (0x120 ≤ off.toNat ∧ off.toNat < 0x1000) ∨
        (0x2FC0 ≤ off.toNat ∧ off.toNat < 0x4000) ∨ 0x60E0 ≤ off.toNat →
      s.busRead off = 0x00000000)

/-- R55, R61: a host read changes nothing but what the host has read, whether the core is idle or busy. -/
def Obligations.ReadsHaveNoSideEffect : Prop :=
  ∀ (s : State) (off : BitVec 15) (rest : List Event), s.rst = false → off.toNat % 4 = 0 →
    s.events = .read .w32 off :: rest →
    step s = .next { s with events := rest, hostReads := s.hostReads ++ [s.busRead off] }

/-- R56, R60, R66: the step of a host write is BusWrite of its offset and word, whether the core is idle or busy; and what a
write to each register does while BUSY = 0. -/
def Obligations.IdleRegisterWrites : Prop :=
  (∀ (s : State) (off : BitVec 15) (v : Word) (rest : List Event), s.rst = false → off.toNat % 4 = 0 →
    s.events = .write .w32 off v :: rest → step s = .next (({ s with events := rest } : State).busWrite off v)) ∧
  ∀ (s : State) (v : Word), s.busy = false →
    s.busWrite 0x004 v = { s with cmdlast := v, pend := .cmd v, done := false, err := .ok } ∧
    s.busWrite 0x008 v
      = { s with
          done := if v.getLsbD 1 then false else s.done
          wbusy := if v.getLsbD 2 then false else s.wbusy } ∧
    s.busWrite 0x00C v
      = { s with paramN := v.setWidth 8, paramK := (v >>> 8).setWidth 8, paramM := (v >>> 16).setWidth 8 } ∧
    s.busWrite 0x010 v = { s with a := v.setWidth 8 } ∧
    s.busWrite 0x014 v = { s with b := v.setWidth 8 } ∧
    s.busWrite 0x01C v = { s with ie := v.getLsbD 0 } ∧
    s.busWrite 0x000 v = s ∧ s.busWrite 0x018 v = s ∧ s.busWrite 0x020 v = s

/-- R56, R52, R58: a write to a RAM word while BUSY = 0 stores its four bytes in the lanes of R52, the pad byte excepted,
and changes nothing else. IdleRegisterWrites states that a host write's step is busWrite. -/
def Obligations.IdleRamWrites : Prop :=
  ∀ (s : State) (v : Word) (off : BitVec 15), s.busy = false → s.mem.wf → off.toNat % 4 = 0 →
    (0x100 ≤ off.toNat ∧ off.toNat ≤ 0x11C) ∨ (0x1000 ≤ off.toNat ∧ off.toNat ≤ 0x2FBC) ∨
      (0x4000 ≤ off.toNat ∧ off.toNat ≤ 0x60DC) →
    s.busWrite off v = { s with mem := (s.busWrite off v).mem } ∧
    (∀ l, l < 4 → off.toNat + l ≠ 0x60DF →
      (s.busWrite off v).mem.read (off.toNat + l) = v.extractLsb' (8 * l) 8) ∧
    ∀ a, a = 0x60DF ∨ a < off.toNat ∨ off.toNat + 4 ≤ a →
      (s.busWrite off v).mem.read a = s.mem.read a

/-- R59: while BUSY = 1 the registers A, B and R and the RAM windows read 0, and every other offset reads as when
idle. -/
def Obligations.BusyReadsHideSecrets : Prop :=
  ∀ (s : State) (off : BitVec 15), s.busy = true → off.toNat % 4 = 0 →
    (off = 0x010 ∨ off = 0x014 ∨ off = 0x018 ∨ (0x100 ≤ off.toNat ∧ off.toNat ≤ 0x11C) ∨
        (0x1000 ≤ off.toNat ∧ off.toNat ≤ 0x2FBC) ∨ (0x4000 ≤ off.toNat ∧ off.toNat ≤ 0x60DC) →
      s.busRead off = 0x00000000) ∧
    (off = 0x000 → s.busRead off = 0x53535301) ∧
    (off = 0x004 → s.busRead off = 0x00000000) ∧
    (off = 0x008 → s.busRead off
      = (s.err.code ++ 0#1 ++ BitVec.ofBool s.wbusy ++ BitVec.ofBool s.done ++ 1#1).setWidth 32) ∧
    (off = 0x00C → s.busRead off = (s.paramM ++ s.paramK ++ s.paramN).setWidth 32) ∧
    (off = 0x01C → s.busRead off = (BitVec.ofBool s.ie).setWidth 32) ∧
    (off = 0x020 → s.busRead off = s.cmdlast) ∧
    ((0x024 ≤ off.toNat ∧ off.toNat < 0x100) ∨ (0x120 ≤ off.toNat ∧ off.toNat < 0x1000) ∨
        (0x2FC0 ≤ off.toNat ∧ off.toNat < 0x4000) ∨ 0x60E0 ≤ off.toNat →
      s.busRead off = 0x00000000)

/-- R60: while BUSY = 1 a write to CMD, PARAM, A, B or a RAM window is dropped and sets WBUSY; STATUS and IRQEN act as
when idle; the rest is ignored. IdleRegisterWrites states that a host write's step is busWrite. -/
def Obligations.BusyWritesDropped : Prop :=
  ∀ (s : State) (off : BitVec 15) (v : Word), s.busy = true → off.toNat % 4 = 0 →
    (off = 0x004 ∨ off = 0x00C ∨ off = 0x010 ∨ off = 0x014 ∨ (0x100 ≤ off.toNat ∧ off.toNat ≤ 0x11C) ∨
        (0x1000 ≤ off.toNat ∧ off.toNat ≤ 0x2FBC) ∨ (0x4000 ≤ off.toNat ∧ off.toNat ≤ 0x60DC) →
      s.busWrite off v = { s with wbusy := true }) ∧
    (off = 0x008 → s.busWrite off v
      = { s with
          done := if v.getLsbD 1 then false else s.done
          wbusy := if v.getLsbD 2 then false else s.wbusy }) ∧
    (off = 0x01C → s.busWrite off v = { s with ie := v.getLsbD 0 }) ∧
    (off = 0x000 ∨ off = 0x018 ∨ off = 0x020 ∨ (0x024 ≤ off.toNat ∧ off.toNat < 0x100) ∨
        (0x120 ≤ off.toNat ∧ off.toNat < 0x1000) ∨ (0x2FC0 ≤ off.toNat ∧ off.toNat < 0x4000) ∨
        0x60E0 ≤ off.toNat →
      s.busWrite off v = s)

/-- R54: reserved offsets read 0, and writes to them and to ID, R and CMDLAST are ignored without setting WBUSY, idle or
busy. -/
def Obligations.ReservedOffsetsInert : Prop :=
  ∀ (s : State) (off : BitVec 15) (v : Word), off.toNat % 4 = 0 →
    ((0x024 ≤ off.toNat ∧ off.toNat < 0x100) ∨ (0x120 ≤ off.toNat ∧ off.toNat < 0x1000) ∨
        (0x2FC0 ≤ off.toNat ∧ off.toNat < 0x4000) ∨ 0x60E0 ≤ off.toNat →
      s.busRead off = 0x00000000 ∧ s.busWrite off v = s) ∧
    (off = 0x000 ∨ off = 0x018 ∨ off = 0x020 → s.busWrite off v = s)

/-- R57: a narrow register reads back only its own bits. -/
def Obligations.NarrowRegistersReadBack : Prop :=
  ∀ (s : State) (v : Word), s.busy = false →
    (s.busWrite 0x00C v).busRead 0x00C = v &&& 0x00FFFFFF ∧
    (s.busWrite 0x010 v).busRead 0x010 = v &&& 0x000000FF ∧
    (s.busWrite 0x014 v).busRead 0x014 = v &&& 0x000000FF ∧
    (s.busWrite 0x01C v).busRead 0x01C = v &&& 0x00000001 ∧
    (s.busWrite 0x010 0x12345678).a = 0x78 ∧
    (s.busWrite 0x010 0x12345678).busRead 0x010 = 0x00000078

/-- R61: every write other than to CMD is idempotent. -/
def Obligations.WritesAreIdempotent : Prop :=
  ∀ (s : State) (off : BitVec 15) (v : Word), s.mem.wf → off.toNat % 4 = 0 → off ≠ 0x004 →
    (s.busWrite off v).busWrite off v = s.busWrite off v

/-- R206: between acceptance and completion no access of the host and no answer of the source changes the operands, the
result register, the RAMs or the command: a command executes on the operands present at its acceptance. -/
def Obligations.OperandsFixedWhileBusy : Prop :=
  ∀ (s t : State) (e : Event) (rest : List Event), s.busy = true → s.events = e :: rest → e ≠ .core →
    e ≠ .rstAssert → e ≠ .rstRelease → step s = .next t →
    t.pend = s.pend ∧ t.cmdlast = s.cmdlast ∧ t.a = s.a ∧ t.b = s.b ∧ t.r = s.r ∧ t.paramN = s.paramN ∧
    t.paramK = s.paramK ∧ t.paramM = s.paramM ∧ t.mem = s.mem ∧ t.err = s.err

/-- R59: while busy the host learns nothing of A, B, R or the RAMs: two states that differ only there give the same next
states up to the same differences, and the same words read. -/
def Obligations.BusyHostLearnsNothing : Prop :=
  ∀ (s s' t t' : State) (e : Event) (rest : List Event), s.busy = true → s.rst = false →
    s' = { s with a := s'.a, b := s'.b, r := s'.r, mem := s'.mem } →
    s.events = e :: rest → e ≠ .core → step s = .next t → step s' = .next t' →
    t' = { t with a := t'.a, b := t'.b, r := t'.r, mem := t'.mem } ∧ t'.hostReads = t.hostReads

/-! ### Interrupt -/

/-- R188: irq is DONE AND IE; it rises when a command completes with IE = 1, whatever its code, or when the host sets IE
while DONE = 1. -/
def Obligations.IrqRises : Prop :=
  (∀ s : State, s.irq = (s.done && s.ie)) ∧
  (∀ (s t : State) (w : Word) (rest : List Event), s.pend = .cmd w → s.rst = false → coreMoves s rest →
    step s = .next t → t.pend = .none → t.irq = s.ie) ∧
  ∀ (s t : State) (v : Word) (rest : List Event), s.rst = false → s.done = true → v.getLsbD 0 = true →
    s.events = .write .w32 0x01C v :: rest → step s = .next t → t.irq = true

/-- R189: irq falls at a W1C of DONE, at IE = 0, at an acceptance and at reset. That it is 0 from the assertion of rst on,
where R200 speaks of the release, is the model's (log entry 6). -/
def Obligations.IrqFalls : Prop :=
  ∀ (s t : State) (v : Word) (rest : List Event), step s = .next t →
    (s.rst = false → v.getLsbD 1 = true → s.events = .write .w32 0x008 v :: rest → t.irq = false) ∧
    (s.rst = false → v.getLsbD 0 = false → s.events = .write .w32 0x01C v :: rest → t.irq = false) ∧
    (s.rst = false → s.busy = false → s.events = .write .w32 0x004 v :: rest → t.irq = false) ∧
    (s.events = .rstAssert :: rest ∨ s.events = .rstRelease :: rest → t.irq = false)

/-! ### Reset -/

/-- R39, R200: at the release of rst every register has its reset value, PEND = reset_clear and STATUS = 0x00000001,
whatever the state before. The edges of rst are the model's events (log entry 6). -/
def Obligations.ReleaseGivesResetValues : Prop :=
  State.reset.statusWord = 0x00000001 ∧
  ∀ (s : State) (rest : List Event), s.events = .rstRelease :: rest →
    ∃ t, step s = .next t ∧ t.pend = .resetClear ∧ t.statusWord = 0x00000001 ∧ t.busRead 0x000 = 0x53535301 ∧
      t.a = 0x00 ∧ t.b = 0x00 ∧ t.r = 0x00 ∧ t.paramN = 0x00 ∧ t.paramK = 0x00 ∧ t.paramM = 0x00 ∧
      t.ie = false ∧ t.cmdlast = 0x00000000 ∧ t.irq = false ∧ t.rst = false ∧ t.events = rest

/-- R201: the reset clear zeroes every RAM byte, ends BUSY and leaves DONE, ERR and irq as they were. -/
def Obligations.ResetClearZeroesRams : Prop :=
  ∀ (s : State) (rest : List Event), s.pend = .resetClear → s.rst = false → coreMoves s rest →
    ∃ t, step s = .next t ∧ t = { s with events := rest, mem := t.mem, pend := .none } ∧ t.busy = false ∧
      (∀ a, t.mem.read a = 0x00) ∧ t.irq = s.irq

/-- R202: a reset asserted at any moment, released, and followed by the reset clear leaves no trace of the command or of
the RAMs: every architectural field has the value it has after any other reset. That the answers supplied so far are
dropped is the model's choice (log entry 5), and so is that PEND = reset_clear from the assertion on, where R200 gives it
at the release (log entry 6). -/
def Obligations.ResetAbandonsCommand : Prop :=
  ∀ (s : State) (rest : List Event), s.events = .rstAssert :: .rstRelease :: .core :: rest →
    ∃ t u v, step s = .next t ∧ step t = .next u ∧ step u = .next v ∧ t.pend = .resetClear ∧
      v = { State.reset with
            pend := .none, events := rest, hostReads := s.hostReads, freeCount := s.freeCount }

/-- R200, I4 of 93_implementation_defined.md, log entries 1, 5 and 6: while rst is asserted the core has no step, a write
and an answer have no effect, and a read gives a word that nothing constrains. -/
def Obligations.HeldInResetIsInert : Prop :=
  ∀ (s : State) (rest : List Event), s.rst = true →
    (coreMoves s rest → step s = .next { s with events := rest }) ∧
    (∀ off v, off.toNat % 4 = 0 → s.events = .write .w32 off v :: rest →
      step s = .next { s with events := rest }) ∧
    (∀ a, s.events = .answer a :: rest → step s = .next { s with events := rest }) ∧
    ∀ off, off.toNat % 4 = 0 → s.events = .read .w32 off :: rest →
      ∃ x, step s
        = .next { s with events := rest, hostReads := s.hostReads ++ [x], freeCount := s.freeCount + 1 }

/-! ### Invariants -/

/-- The invariant holds at reset. -/
def Obligations.InvariantAtReset : Prop := State.reset.Inv

/-- Every step keeps the invariant: the RAMs stay in canonical form inside their windows, DONE = 0 and ERR = 0 while busy
(R26), CMDLAST is the word in execution (R30), and a core held in reset has its reset clear before it (R200). The
canonical form is the model's (log entry 10), and so is PEND = reset_clear while rst is asserted, where R200 gives it at
the release (log entry 6). -/
def Obligations.StepKeepsInvariant : Prop :=
  ∀ s t : State, s.Inv → step s = .next t → t.Inv

/-- Two memories in canonical form, the model's (log entry 10), that read alike at every offset are equal data. -/
def Obligations.CanonicalMemoriesEqual : Prop :=
  ∀ m m' : Memory, m.wf → m'.wf → (∀ a, m.read a = m'.read a) → m = m'

/-! ### Constant time -/

/-- R129, R146: the gmul and ginv calls of a command and the RAM locations it touches, in their order, depend only on p, i, N,
K and M, and for the drawing commands on which answers fail, never on the values in A, KEY, COEF or SHARE; and which
locations EVAL, BSHARE, BASIS and BCOMB touch. The operations are those of the model's counted copies (log entry 12). -/
def Obligations.TouchedLocationsArePublic : Prop :=
  (∀ (s t : State) (j : Instr), t.paramN = s.paramN → t.paramK = s.paramK → t.paramM = s.paramM →
    (j = .rngfill ∨ j = .kcreate → answerFails t = answerFails s) →
    t.opsOf j = s.opsOf j ∧ t.gmulCalls j = s.gmulCalls j ∧ t.ginvCalls j = s.ginvCalls j ∧
      t.touched j = s.touched j) ∧
  ∀ (s : State) (p i a : Nat),
    (1 ≤ s.countK →
      (a ∈ s.touched (.eval p) ↔ a = keyAddr p ∨ ∃ c, 1 ≤ c ∧ c < s.countK ∧ a = coefAddr p c)) ∧
    (1 ≤ s.countK → s.countK ≤ s.countN →
      (a ∈ s.touched (.bshare p) ↔
        a = keyAddr p ∨ (∃ c, 1 ≤ c ∧ c < s.countK ∧ a = coefAddr p c) ∨
          ∃ j, j < s.countN ∧ (a = sxAddr j ∨ a = syAddr j p))) ∧
    (i < s.countM → (a ∈ s.touched (.basis i) ↔ 2 ≤ s.countM ∧ ∃ j, j < s.countM ∧ a = sxAddr j)) ∧
    (1 ≤ s.countM →
      (a ∈ s.touched (.bcomb p) ↔
        a = keyAddr p ∨ ∃ j, j < s.countM ∧ (a = syAddr j p ∨ (2 ≤ s.countM ∧ a = sxAddr j))))
end

