-- ==== Sys2Proof/Laws/State.lean ====
section
/-! SUPPORT. State.lean: each field after each shared update of the state, one lemma per field and update. -/

namespace Sys2Proof.Machine

variable (s : State)

/-! ### accept -/

@[simp] theorem State.accept_a (w : Word) : (s.accept w).a = s.a := rfl
@[simp] theorem State.accept_b (w : Word) : (s.accept w).b = s.b := rfl
@[simp] theorem State.accept_r (w : Word) : (s.accept w).r = s.r := rfl
@[simp] theorem State.accept_paramN (w : Word) : (s.accept w).paramN = s.paramN := rfl
@[simp] theorem State.accept_paramK (w : Word) : (s.accept w).paramK = s.paramK := rfl
@[simp] theorem State.accept_paramM (w : Word) : (s.accept w).paramM = s.paramM := rfl
@[simp] theorem State.accept_done (w : Word) : (s.accept w).done = false := rfl
@[simp] theorem State.accept_wbusy (w : Word) : (s.accept w).wbusy = s.wbusy := rfl
@[simp] theorem State.accept_err (w : Word) : (s.accept w).err = .ok := rfl
@[simp] theorem State.accept_ie (w : Word) : (s.accept w).ie = s.ie := rfl
@[simp] theorem State.accept_cmdlast (w : Word) : (s.accept w).cmdlast = w := rfl
@[simp] theorem State.accept_pend (w : Word) : (s.accept w).pend = .cmd w := rfl
@[simp] theorem State.accept_mem (w : Word) : (s.accept w).mem = s.mem := rfl
@[simp] theorem State.accept_rst (w : Word) : (s.accept w).rst = s.rst := rfl
@[simp] theorem State.accept_rng (w : Word) : (s.accept w).rng = s.rng := rfl
@[simp] theorem State.accept_events (w : Word) : (s.accept w).events = s.events := rfl
@[simp] theorem State.accept_hostReads (w : Word) : (s.accept w).hostReads = s.hostReads := rfl
@[simp] theorem State.accept_freeCount (w : Word) : (s.accept w).freeCount = s.freeCount := rfl

/-! ### complete -/

@[simp] theorem State.complete_a (e : ErrCode) : (s.complete e).a = s.a := rfl
@[simp] theorem State.complete_b (e : ErrCode) : (s.complete e).b = s.b := rfl
@[simp] theorem State.complete_r (e : ErrCode) : (s.complete e).r = s.r := rfl
@[simp] theorem State.complete_paramN (e : ErrCode) : (s.complete e).paramN = s.paramN := rfl
@[simp] theorem State.complete_paramK (e : ErrCode) : (s.complete e).paramK = s.paramK := rfl
@[simp] theorem State.complete_paramM (e : ErrCode) : (s.complete e).paramM = s.paramM := rfl
@[simp] theorem State.complete_done (e : ErrCode) : (s.complete e).done = true := rfl
@[simp] theorem State.complete_wbusy (e : ErrCode) : (s.complete e).wbusy = s.wbusy := rfl
@[simp] theorem State.complete_err (e : ErrCode) : (s.complete e).err = e := rfl
@[simp] theorem State.complete_ie (e : ErrCode) : (s.complete e).ie = s.ie := rfl
@[simp] theorem State.complete_cmdlast (e : ErrCode) : (s.complete e).cmdlast = s.cmdlast := rfl
@[simp] theorem State.complete_pend (e : ErrCode) : (s.complete e).pend = .none := rfl
@[simp] theorem State.complete_mem (e : ErrCode) : (s.complete e).mem = s.mem := rfl
@[simp] theorem State.complete_rst (e : ErrCode) : (s.complete e).rst = s.rst := rfl
@[simp] theorem State.complete_rng (e : ErrCode) : (s.complete e).rng = s.rng := rfl
@[simp] theorem State.complete_events (e : ErrCode) : (s.complete e).events = s.events := rfl
@[simp] theorem State.complete_hostReads (e : ErrCode) : (s.complete e).hostReads = s.hostReads := rfl
@[simp] theorem State.complete_freeCount (e : ErrCode) : (s.complete e).freeCount = s.freeCount := rfl

/-! ### writeMem -/

@[simp] theorem State.writeMem_a (x : Nat) (v : Byte) : (s.writeMem x v).a = s.a := rfl
@[simp] theorem State.writeMem_b (x : Nat) (v : Byte) : (s.writeMem x v).b = s.b := rfl
@[simp] theorem State.writeMem_r (x : Nat) (v : Byte) : (s.writeMem x v).r = s.r := rfl
@[simp] theorem State.writeMem_paramN (x : Nat) (v : Byte) : (s.writeMem x v).paramN = s.paramN := rfl
@[simp] theorem State.writeMem_paramK (x : Nat) (v : Byte) : (s.writeMem x v).paramK = s.paramK := rfl
@[simp] theorem State.writeMem_paramM (x : Nat) (v : Byte) : (s.writeMem x v).paramM = s.paramM := rfl
@[simp] theorem State.writeMem_done (x : Nat) (v : Byte) : (s.writeMem x v).done = s.done := rfl
@[simp] theorem State.writeMem_wbusy (x : Nat) (v : Byte) : (s.writeMem x v).wbusy = s.wbusy := rfl
@[simp] theorem State.writeMem_err (x : Nat) (v : Byte) : (s.writeMem x v).err = s.err := rfl
@[simp] theorem State.writeMem_ie (x : Nat) (v : Byte) : (s.writeMem x v).ie = s.ie := rfl
@[simp] theorem State.writeMem_cmdlast (x : Nat) (v : Byte) : (s.writeMem x v).cmdlast = s.cmdlast := rfl
@[simp] theorem State.writeMem_pend (x : Nat) (v : Byte) : (s.writeMem x v).pend = s.pend := rfl
@[simp] theorem State.writeMem_mem (x : Nat) (v : Byte) : (s.writeMem x v).mem = s.mem.write x v := rfl
@[simp] theorem State.writeMem_rst (x : Nat) (v : Byte) : (s.writeMem x v).rst = s.rst := rfl
@[simp] theorem State.writeMem_rng (x : Nat) (v : Byte) : (s.writeMem x v).rng = s.rng := rfl
@[simp] theorem State.writeMem_events (x : Nat) (v : Byte) : (s.writeMem x v).events = s.events := rfl
@[simp] theorem State.writeMem_hostReads (x : Nat) (v : Byte) : (s.writeMem x v).hostReads = s.hostReads := rfl
@[simp] theorem State.writeMem_freeCount (x : Nat) (v : Byte) : (s.writeMem x v).freeCount = s.freeCount := rfl

/-! ### clearRams -/

@[simp] theorem State.clearRams_a : (s.clearRams).a = s.a := rfl
@[simp] theorem State.clearRams_b : (s.clearRams).b = s.b := rfl
@[simp] theorem State.clearRams_r : (s.clearRams).r = s.r := rfl
@[simp] theorem State.clearRams_paramN : (s.clearRams).paramN = s.paramN := rfl
@[simp] theorem State.clearRams_paramK : (s.clearRams).paramK = s.paramK := rfl
@[simp] theorem State.clearRams_paramM : (s.clearRams).paramM = s.paramM := rfl
@[simp] theorem State.clearRams_done : (s.clearRams).done = s.done := rfl
@[simp] theorem State.clearRams_wbusy : (s.clearRams).wbusy = s.wbusy := rfl
@[simp] theorem State.clearRams_err : (s.clearRams).err = s.err := rfl
@[simp] theorem State.clearRams_ie : (s.clearRams).ie = s.ie := rfl
@[simp] theorem State.clearRams_cmdlast : (s.clearRams).cmdlast = s.cmdlast := rfl
@[simp] theorem State.clearRams_pend : (s.clearRams).pend = s.pend := rfl
@[simp] theorem State.clearRams_mem : (s.clearRams).mem = [] := rfl
@[simp] theorem State.clearRams_rst : (s.clearRams).rst = s.rst := rfl
@[simp] theorem State.clearRams_rng : (s.clearRams).rng = s.rng := rfl
@[simp] theorem State.clearRams_events : (s.clearRams).events = s.events := rfl
@[simp] theorem State.clearRams_hostReads : (s.clearRams).hostReads = s.hostReads := rfl
@[simp] theorem State.clearRams_freeCount : (s.clearRams).freeCount = s.freeCount := rfl

/-! ### resetClear -/

@[simp] theorem State.resetClear_a : (s.resetClear).a = s.a := rfl
@[simp] theorem State.resetClear_b : (s.resetClear).b = s.b := rfl
@[simp] theorem State.resetClear_r : (s.resetClear).r = s.r := rfl
@[simp] theorem State.resetClear_paramN : (s.resetClear).paramN = s.paramN := rfl
@[simp] theorem State.resetClear_paramK : (s.resetClear).paramK = s.paramK := rfl
@[simp] theorem State.resetClear_paramM : (s.resetClear).paramM = s.paramM := rfl
@[simp] theorem State.resetClear_done : (s.resetClear).done = s.done := rfl
@[simp] theorem State.resetClear_wbusy : (s.resetClear).wbusy = s.wbusy := rfl
@[simp] theorem State.resetClear_err : (s.resetClear).err = s.err := rfl
@[simp] theorem State.resetClear_ie : (s.resetClear).ie = s.ie := rfl
@[simp] theorem State.resetClear_cmdlast : (s.resetClear).cmdlast = s.cmdlast := rfl
@[simp] theorem State.resetClear_pend : (s.resetClear).pend = .none := rfl
@[simp] theorem State.resetClear_mem : (s.resetClear).mem = [] := rfl
@[simp] theorem State.resetClear_rst : (s.resetClear).rst = s.rst := rfl
@[simp] theorem State.resetClear_rng : (s.resetClear).rng = s.rng := rfl
@[simp] theorem State.resetClear_events : (s.resetClear).events = s.events := rfl
@[simp] theorem State.resetClear_hostReads : (s.resetClear).hostReads = s.hostReads := rfl
@[simp] theorem State.resetClear_freeCount : (s.resetClear).freeCount = s.freeCount := rfl

/-! ### writeStatus -/

@[simp] theorem State.writeStatus_a (v : Word) : (s.writeStatus v).a = s.a := rfl
@[simp] theorem State.writeStatus_b (v : Word) : (s.writeStatus v).b = s.b := rfl
@[simp] theorem State.writeStatus_r (v : Word) : (s.writeStatus v).r = s.r := rfl
@[simp] theorem State.writeStatus_paramN (v : Word) : (s.writeStatus v).paramN = s.paramN := rfl
@[simp] theorem State.writeStatus_paramK (v : Word) : (s.writeStatus v).paramK = s.paramK := rfl
@[simp] theorem State.writeStatus_paramM (v : Word) : (s.writeStatus v).paramM = s.paramM := rfl
@[simp] theorem State.writeStatus_done (v : Word) : (s.writeStatus v).done = (s.done && !v.getLsbD 1) := rfl
@[simp] theorem State.writeStatus_wbusy (v : Word) : (s.writeStatus v).wbusy = (s.wbusy && !v.getLsbD 2) := rfl
@[simp] theorem State.writeStatus_err (v : Word) : (s.writeStatus v).err = s.err := rfl
@[simp] theorem State.writeStatus_ie (v : Word) : (s.writeStatus v).ie = s.ie := rfl
@[simp] theorem State.writeStatus_cmdlast (v : Word) : (s.writeStatus v).cmdlast = s.cmdlast := rfl
@[simp] theorem State.writeStatus_pend (v : Word) : (s.writeStatus v).pend = s.pend := rfl
@[simp] theorem State.writeStatus_mem (v : Word) : (s.writeStatus v).mem = s.mem := rfl
@[simp] theorem State.writeStatus_rst (v : Word) : (s.writeStatus v).rst = s.rst := rfl
@[simp] theorem State.writeStatus_rng (v : Word) : (s.writeStatus v).rng = s.rng := rfl
@[simp] theorem State.writeStatus_events (v : Word) : (s.writeStatus v).events = s.events := rfl
@[simp] theorem State.writeStatus_hostReads (v : Word) : (s.writeStatus v).hostReads = s.hostReads := rfl
@[simp] theorem State.writeStatus_freeCount (v : Word) : (s.writeStatus v).freeCount = s.freeCount := rfl

/-! ### writeIrqen -/

@[simp] theorem State.writeIrqen_a (v : Word) : (s.writeIrqen v).a = s.a := rfl
@[simp] theorem State.writeIrqen_b (v : Word) : (s.writeIrqen v).b = s.b := rfl
@[simp] theorem State.writeIrqen_r (v : Word) : (s.writeIrqen v).r = s.r := rfl
@[simp] theorem State.writeIrqen_paramN (v : Word) : (s.writeIrqen v).paramN = s.paramN := rfl
@[simp] theorem State.writeIrqen_paramK (v : Word) : (s.writeIrqen v).paramK = s.paramK := rfl
@[simp] theorem State.writeIrqen_paramM (v : Word) : (s.writeIrqen v).paramM = s.paramM := rfl
@[simp] theorem State.writeIrqen_done (v : Word) : (s.writeIrqen v).done = s.done := rfl
@[simp] theorem State.writeIrqen_wbusy (v : Word) : (s.writeIrqen v).wbusy = s.wbusy := rfl
@[simp] theorem State.writeIrqen_err (v : Word) : (s.writeIrqen v).err = s.err := rfl
@[simp] theorem State.writeIrqen_ie (v : Word) : (s.writeIrqen v).ie = v.getLsbD 0 := rfl
@[simp] theorem State.writeIrqen_cmdlast (v : Word) : (s.writeIrqen v).cmdlast = s.cmdlast := rfl
@[simp] theorem State.writeIrqen_pend (v : Word) : (s.writeIrqen v).pend = s.pend := rfl
@[simp] theorem State.writeIrqen_mem (v : Word) : (s.writeIrqen v).mem = s.mem := rfl
@[simp] theorem State.writeIrqen_rst (v : Word) : (s.writeIrqen v).rst = s.rst := rfl
@[simp] theorem State.writeIrqen_rng (v : Word) : (s.writeIrqen v).rng = s.rng := rfl
@[simp] theorem State.writeIrqen_events (v : Word) : (s.writeIrqen v).events = s.events := rfl
@[simp] theorem State.writeIrqen_hostReads (v : Word) : (s.writeIrqen v).hostReads = s.hostReads := rfl
@[simp] theorem State.writeIrqen_freeCount (v : Word) : (s.writeIrqen v).freeCount = s.freeCount := rfl

/-! ### dropWrite -/

@[simp] theorem State.dropWrite_a : (s.dropWrite).a = s.a := rfl
@[simp] theorem State.dropWrite_b : (s.dropWrite).b = s.b := rfl
@[simp] theorem State.dropWrite_r : (s.dropWrite).r = s.r := rfl
@[simp] theorem State.dropWrite_paramN : (s.dropWrite).paramN = s.paramN := rfl
@[simp] theorem State.dropWrite_paramK : (s.dropWrite).paramK = s.paramK := rfl
@[simp] theorem State.dropWrite_paramM : (s.dropWrite).paramM = s.paramM := rfl
@[simp] theorem State.dropWrite_done : (s.dropWrite).done = s.done := rfl
@[simp] theorem State.dropWrite_wbusy : (s.dropWrite).wbusy = true := rfl
@[simp] theorem State.dropWrite_err : (s.dropWrite).err = s.err := rfl
@[simp] theorem State.dropWrite_ie : (s.dropWrite).ie = s.ie := rfl
@[simp] theorem State.dropWrite_cmdlast : (s.dropWrite).cmdlast = s.cmdlast := rfl
@[simp] theorem State.dropWrite_pend : (s.dropWrite).pend = s.pend := rfl
@[simp] theorem State.dropWrite_mem : (s.dropWrite).mem = s.mem := rfl
@[simp] theorem State.dropWrite_rst : (s.dropWrite).rst = s.rst := rfl
@[simp] theorem State.dropWrite_rng : (s.dropWrite).rng = s.rng := rfl
@[simp] theorem State.dropWrite_events : (s.dropWrite).events = s.events := rfl
@[simp] theorem State.dropWrite_hostReads : (s.dropWrite).hostReads = s.hostReads := rfl
@[simp] theorem State.dropWrite_freeCount : (s.dropWrite).freeCount = s.freeCount := rfl

/-! ### resetRegisters -/

@[simp] theorem State.resetRegisters_a (l : Bool) : (s.resetRegisters l).a = State.reset.a := rfl
@[simp] theorem State.resetRegisters_b (l : Bool) : (s.resetRegisters l).b = State.reset.b := rfl
@[simp] theorem State.resetRegisters_r (l : Bool) : (s.resetRegisters l).r = State.reset.r := rfl
@[simp] theorem State.resetRegisters_paramN (l : Bool) : (s.resetRegisters l).paramN = State.reset.paramN := rfl
@[simp] theorem State.resetRegisters_paramK (l : Bool) : (s.resetRegisters l).paramK = State.reset.paramK := rfl
@[simp] theorem State.resetRegisters_paramM (l : Bool) : (s.resetRegisters l).paramM = State.reset.paramM := rfl
@[simp] theorem State.resetRegisters_done (l : Bool) : (s.resetRegisters l).done = State.reset.done := rfl
@[simp] theorem State.resetRegisters_wbusy (l : Bool) : (s.resetRegisters l).wbusy = State.reset.wbusy := rfl
@[simp] theorem State.resetRegisters_err (l : Bool) : (s.resetRegisters l).err = State.reset.err := rfl
@[simp] theorem State.resetRegisters_ie (l : Bool) : (s.resetRegisters l).ie = State.reset.ie := rfl
@[simp] theorem State.resetRegisters_cmdlast (l : Bool) : (s.resetRegisters l).cmdlast = State.reset.cmdlast := rfl
@[simp] theorem State.resetRegisters_pend (l : Bool) : (s.resetRegisters l).pend = State.reset.pend := rfl
@[simp] theorem State.resetRegisters_mem (l : Bool) : (s.resetRegisters l).mem = State.reset.mem := rfl
@[simp] theorem State.resetRegisters_rst (l : Bool) : (s.resetRegisters l).rst = l := rfl
@[simp] theorem State.resetRegisters_rng (l : Bool) : (s.resetRegisters l).rng = State.reset.rng := rfl
@[simp] theorem State.resetRegisters_events (l : Bool) : (s.resetRegisters l).events = s.events := rfl
@[simp] theorem State.resetRegisters_hostReads (l : Bool) : (s.resetRegisters l).hostReads = s.hostReads := rfl
@[simp] theorem State.resetRegisters_freeCount (l : Bool) : (s.resetRegisters l).freeCount = s.freeCount := rfl

/-! ### The named RAM writes are `writeMem` -/

@[simp] theorem State.setKey_eq (p : Nat) (v : Byte) : s.setKey p v = s.writeMem (keyAddr p) v := rfl
@[simp] theorem State.setCoef_eq (p c : Nat) (v : Byte) : s.setCoef p c v = s.writeMem (coefAddr p c) v := rfl
@[simp] theorem State.setSx_eq (i : Nat) (v : Byte) : s.setSx i v = s.writeMem (sxAddr i) v := rfl
@[simp] theorem State.setSy_eq (i p : Nat) (v : Byte) : s.setSy i p v = s.writeMem (syAddr i p) v := rfl

/-! ### BUSY -/

@[simp] theorem State.complete_busy (e : ErrCode) : (s.complete e).busy = false := rfl
@[simp] theorem State.accept_busy (w : Word) : (s.accept w).busy = true := rfl
@[simp] theorem State.resetClear_busy : s.resetClear.busy = false := rfl
@[simp] theorem State.writeMem_busy (x : Nat) (v : Byte) : (s.writeMem x v).busy = s.busy := rfl
@[simp] theorem State.resetRegisters_busy (l : Bool) : (s.resetRegisters l).busy = true := rfl

end Sys2Proof.Machine
end

