-- ==== Sys2Proof/Laws/Ops.lean ====
section
/-! SUPPORT. Ops.lean: the induction rules of the two loops, and what an operation that only stores RAM bytes does. -/

namespace Sys2Proof.Machine

/-! ### Loops -/

@[simp] theorem forUp_zero {σ : Type} (body : Nat → σ → σ) (x : σ) : forUp 0 body x = x := rfl

@[simp] theorem forUp_succ {σ : Type} (n : Nat) (body : Nat → σ → σ) (x : σ) :
    forUp (n + 1) body x = body n (forUp n body x) := rfl

@[simp] theorem forDown_zero {σ : Type} (body : Nat → σ → σ) (x : σ) : forDown 0 body x = x := rfl

@[simp] theorem forDown_succ {σ : Type} (n : Nat) (body : Nat → σ → σ) (x : σ) :
    forDown (n + 1) body x = forDown n body (body (n + 1) x) := rfl

/-- What holds at the start and is carried through each iteration holds at the end. -/
theorem forUp_induct {σ : Type} {P : Nat → σ → Prop} {n : Nat} {body : Nat → σ → σ} {x : σ} (h0 : P 0 x)
    (hs : ∀ i y, i < n → P i y → P (i + 1) (body i y)) : P n (forUp n body x) := by
  induction n with
  | zero => exact h0
  | succ n ih => exact hs n _ (by omega) (ih fun i y hi => hs i y (by omega))

/-- Two loops whose bodies agree on the values they meet agree. -/
theorem forUp_congr {σ : Type} {n : Nat} {f g : Nat → σ → σ} {x : σ} (h : ∀ i y, i < n → f i y = g i y) :
    forUp n f x = forUp n g x := by
  induction n with
  | zero => rfl
  | succ n ih => rw [forUp_succ, forUp_succ, ih fun i y hi => h i y (by omega), h n _ (by omega)]

theorem forDown_congr {σ : Type} {n : Nat} {f g : Nat → σ → σ} {x : σ}
    (h : ∀ c y, 1 ≤ c → c ≤ n → f c y = g c y) : forDown n f x = forDown n g x := by
  induction n generalizing x with
  | zero => rfl
  | succ n ih =>
    rw [forDown_succ, forDown_succ, h (n + 1) x (by omega) (by omega)]
    exact ih fun c y h1 h2 => h c y h1 (by omega)

/-! ### Operations that only store RAM bytes -/

/-- `t` is `s` with RAM bytes stored at offsets in `A` and nowhere else; the form of the memory is kept. -/
structure OnlyRam (s t : State) (A : Nat → Prop) : Prop where
  frame : t = { s with mem := t.mem }
  wf : s.mem.wf → t.mem.wf
  inRam : (∀ c ∈ s.mem, isRam c.1 = true) → ∀ c ∈ t.mem, isRam c.1 = true
  unchanged : ∀ x, ¬ A x → t.mem.read x = s.mem.read x

theorem OnlyRam.refl (s : State) (A : Nat → Prop) : OnlyRam s s A :=
  ⟨rfl, id, id, fun _ _ => rfl⟩

theorem OnlyRam.trans {s t u : State} {A : Nat → Prop} (h : OnlyRam s t A) (k : OnlyRam t u A) : OnlyRam s u A where
  frame := by rw [k.frame, h.frame]
  wf := k.wf ∘ h.wf
  inRam := k.inRam ∘ h.inRam
  unchanged x hx := (k.unchanged x hx).trans (h.unchanged x hx)

theorem OnlyRam.mono {s t : State} {A B : Nat → Prop} (h : OnlyRam s t A) (hAB : ∀ x, A x → B x) : OnlyRam s t B :=
  ⟨h.frame, h.wf, h.inRam, fun x hx => h.unchanged x fun hA => hx (hAB x hA)⟩

theorem onlyRam_writeMem (s : State) {A : Nat → Prop} {x : Nat} (v : Byte) (hx : A x) (hr : isRam x = true) :
    OnlyRam s (s.writeMem x v) A where
  frame := rfl
  wf h := Memory.write_wf h x v
  inRam h := Memory.write_inRam h v hr
  unchanged _ hy := Memory.read_write_other _ v fun he => hy (he ▸ hx)

theorem OnlyRam.paramN_eq {s t : State} {A : Nat → Prop} (h : OnlyRam s t A) : t.paramN = s.paramN := by rw [h.frame]
theorem OnlyRam.paramK_eq {s t : State} {A : Nat → Prop} (h : OnlyRam s t A) : t.paramK = s.paramK := by rw [h.frame]
theorem OnlyRam.paramM_eq {s t : State} {A : Nat → Prop} (h : OnlyRam s t A) : t.paramM = s.paramM := by rw [h.frame]
theorem OnlyRam.countK_eq {s t : State} {A : Nat → Prop} (h : OnlyRam s t A) : t.countK = s.countK := by
  rw [State.countK, h.paramK_eq, State.countK]
theorem OnlyRam.countM_eq {s t : State} {A : Nat → Prop} (h : OnlyRam s t A) : t.countM = s.countM := by
  rw [State.countM, h.paramM_eq, State.countM]

/-! ### The operand bytes lie in the RAM windows, apart from each other -/

theorem isRam_iff {x : Nat} :
    isRam x = true ↔ (0x100 ≤ x ∧ x ≤ 0x11F) ∨ (0x1000 ≤ x ∧ x ≤ 0x2FBF) ∨ (0x4000 ≤ x ∧ x ≤ 0x60DE) := by
  simp only [isRam, Bool.or_eq_true, Bool.and_eq_true, decide_eq_true_eq, or_assoc]

theorem isRam_keyAddr {p : Nat} (h : p < 32) : isRam (keyAddr p) = true := by
  simp only [isRam_iff, keyAddr]; omega

theorem isRam_coefAddr {p c : Nat} (hp : p < 32) (hc : 1 ≤ c) (hc' : c ≤ 254) : isRam (coefAddr p c) = true := by
  simp only [isRam_iff, coefAddr, coefByteAddr]; omega

theorem isRam_sxAddr {i : Nat} (h : i < 255) : isRam (sxAddr i) = true := by
  simp only [isRam_iff, sxAddr, shareByteAddr]; omega

theorem isRam_syAddr {i p : Nat} (h : i < 255) (hp : p < 32) : isRam (syAddr i p) = true := by
  simp only [isRam_iff, syAddr, shareByteAddr]; omega

theorem coefAddr_inj {p c p' c' : Nat} (hc : 1 ≤ c) (h : c ≤ 254) (hc' : 1 ≤ c') (h' : c' ≤ 254) :
    coefAddr p c = coefAddr p' c' ↔ p = p' ∧ c = c' := by
  simp only [coefAddr, coefByteAddr]; omega

theorem sxAddr_inj {i j : Nat} : sxAddr i = sxAddr j ↔ i = j := by
  simp only [sxAddr, shareByteAddr]; omega

theorem syAddr_inj {i p j q : Nat} (hp : p < 32) (hq : q < 32) : syAddr i p = syAddr j q ↔ i = j ∧ p = q := by
  simp only [syAddr, shareByteAddr]; omega

theorem keyAddr_inj {p q : Nat} : keyAddr p = keyAddr q ↔ p = q := by
  simp only [keyAddr]; omega

theorem sxAddr_ne_syAddr {i j p : Nat} (hp : p < 32) : sxAddr i ≠ syAddr j p := by
  simp only [sxAddr, syAddr, shareByteAddr]; omega

/-- An offset of the SHARE window. -/
def inShare (x : Nat) : Prop := 0x4000 ≤ x ∧ x ≤ 0x60DE

theorem inShare_sxAddr {i : Nat} (h : i < 255) : inShare (sxAddr i) := by
  simp only [inShare, sxAddr, shareByteAddr]; omega

theorem inShare_syAddr {i p : Nat} (h : i < 255) (hp : p < 32) : inShare (syAddr i p) := by
  simp only [inShare, syAddr, shareByteAddr]; omega

theorem not_inShare_keyAddr {p : Nat} (h : p < 32) : ¬ inShare (keyAddr p) := by
  simp only [inShare, keyAddr]; omega

theorem not_inShare_coefAddr {p c : Nat} (hp : p < 32) (hc : 1 ≤ c) (h : c ≤ 254) : ¬ inShare (coefAddr p c) := by
  simp only [inShare, coefAddr, coefByteAddr]; omega

/-! ### The functions of the operands depend on the operand bytes only -/

/-- `poly(p, x)` reads K, KEY[p] and C(p, 1..K-1). -/
theorem poly_congr {s t : State} {p : Nat} (x : Byte) (hk : t.countK = s.countK) (hkey : t.key p = s.key p)
    (hc : ∀ c, 1 ≤ c → c < s.countK → t.coef p c = s.coef p c) : t.poly p x = s.poly p x := by
  simp only [State.poly, hk, hkey]
  rw [forDown_congr fun c y h1 h2 => by rw [hc c h1 (by omega)]]

/-- `basis(i)` reads M and SX(0..M-1), and SX(i). -/
theorem basis_congr {s t : State} {i : Nat} (hm : t.countM = s.countM) (hi : t.sx i = s.sx i)
    (hx : ∀ j, j < s.countM → t.sx j = s.sx j) : t.basis i = s.basis i := by
  simp only [State.basis, State.basisProducts, hm, hi]
  rw [forUp_congr fun j y hj => by rw [hx j hj]]

/-- `comb(p)` reads M, SX(0..M-1) and SY(0..M-1, p). -/
theorem comb_congr {s t : State} {p : Nat} (hm : t.countM = s.countM) (hx : ∀ j, j < s.countM → t.sx j = s.sx j)
    (hy : ∀ j, j < s.countM → t.sy j p = s.sy j p) : t.comb p = s.comb p := by
  simp only [State.comb, hm]
  rw [forUp_congr fun i y hi => by rw [hy i hi, basis_congr hm (hx i hi) hx]]

/-- K is at most 255. -/
theorem countK_le (s : State) : s.countK ≤ 255 := by
  have := s.paramK.isLt; simp only [State.countK]; omega

theorem countN_le (s : State) : s.countN ≤ 255 := by
  have := s.paramN.isLt; simp only [State.countN]; omega

theorem countM_le (s : State) : s.countM ≤ 255 := by
  have := s.paramM.isLt; simp only [State.countM]; omega

/-- Stores into SHARE change no value of a share polynomial. -/
theorem OnlyRam.poly_eq {s t : State} {A : Nat → Prop} (h : OnlyRam s t A) (hA : ∀ x, A x → inShare x) {p : Nat}
    (hp : p < 32) (x : Byte) : t.poly p x = s.poly p x := by
  have hk := countK_le s
  exact poly_congr x h.countK_eq (h.unchanged _ fun hx => not_inShare_keyAddr hp (hA _ hx))
    fun c h1 h2 => h.unchanged _ fun hx => not_inShare_coefAddr hp h1 (by omega) (hA _ hx)

/-- Stores into KEY change no combined byte. -/
theorem OnlyRam.comb_eq {s t : State} {A : Nat → Prop} (h : OnlyRam s t A) (hA : ∀ x, A x → x < 0x120) (p : Nat) :
    t.comb p = s.comb p :=
  comb_congr h.countM_eq
    (fun j _ => h.unchanged _ fun hx => by have := hA _ hx; simp only [sxAddr, shareByteAddr] at this; omega)
    (fun j _ => h.unchanged _ fun hx => by have := hA _ hx; simp only [syAddr, shareByteAddr] at this; omega)

end Sys2Proof.Machine
end

