-- ==== Sys2Proof/Laws/Bus.lean ====
section
/-! SUPPORT. Bus.lean: where each offset leads, the four lanes of a RAM word, and what a RAM word write stores. -/

namespace Sys2Proof.Machine

/-! ### The address map -/

theorem locate_key {off : BitVec 15} (h : 0x100 ≤ off.toNat ∧ off.toNat ≤ 0x11C) :
    locate off = .key (off.toNat - 0x100) := by
  unfold locate; simp only
  repeat first | rw [if_pos (by omega)] | rw [if_neg (by omega)]

theorem locate_coef {off : BitVec 15} (h : 0x1000 ≤ off.toNat ∧ off.toNat ≤ 0x2FBC) :
    locate off = .coef (off.toNat - 0x1000) := by
  unfold locate; simp only
  repeat first | rw [if_pos (by omega)] | rw [if_neg (by omega)]

theorem locate_share {off : BitVec 15} (h : 0x4000 ≤ off.toNat ∧ off.toNat ≤ 0x60DC) :
    locate off = .share (off.toNat - 0x4000) := by
  unfold locate; simp only
  repeat first | rw [if_pos (by omega)] | rw [if_neg (by omega)]

theorem locate_reserved {off : BitVec 15} (h4 : off.toNat % 4 = 0)
    (h : (0x024 ≤ off.toNat ∧ off.toNat < 0x100) ∨ (0x120 ≤ off.toNat ∧ off.toNat < 0x1000) ∨
      (0x2FC0 ≤ off.toNat ∧ off.toNat < 0x4000) ∨ 0x60E0 ≤ off.toNat) : locate off = .reserved := by
  unfold locate; simp only
  repeat rw [if_neg (by omega)]

/-! ### RAM words -/

/-- Lane l of a word put together from four bytes. -/
theorem extractLsb'_lanes (b3 b2 b1 b0 : Byte) (l : Nat) (h : l < 4) :
    (b3 ++ b2 ++ b1 ++ b0 : Word).extractLsb' (8 * l) 8
      = if l = 0 then b0 else if l = 1 then b1 else if l = 2 then b2 else b3 := by
  have key (k : Nat) : BitVec.getLsbD (w := 8 + 8 + 8 + 8) (b3 ++ b2 ++ b1 ++ b0) k
      = if k < 8 then b0.getLsbD k else if k - 8 < 8 then b1.getLsbD (k - 8)
        else if k - 8 - 8 < 8 then b2.getLsbD (k - 8 - 8) else b3.getLsbD (k - 8 - 8 - 8) := by
    simp only [BitVec.getLsbD_append]
  have hl : l = 0 ∨ l = 1 ∨ l = 2 ∨ l = 3 := by omega
  refine BitVec.eq_of_getLsbD_eq fun i hi => ?_
  rw [BitVec.getLsbD_extractLsb', decide_eq_true hi, Bool.true_and]
  refine (key (8 * l + i)).trans ?_
  rcases hl with rfl | rfl | rfl | rfl
  · rw [if_pos (by omega)]; simp
  · rw [if_neg (by omega), if_pos (by omega)]; simp
  · rw [if_neg (by omega), if_neg (by omega), if_pos (by omega)]
    simp [show 8 * 2 + i - 8 - 8 = i by omega]
  · rw [if_neg (by omega), if_neg (by omega), if_neg (by omega)]
    simp [show 8 * 3 + i - 8 - 8 - 8 = i by omega]

/-- Lane l of a RAM word is the RAM byte at index j + l (R52, R55). -/
theorem extractLsb'_ramWord (s : State) (start j size l : Nat) (h : l < 4) :
    (s.ramWord start j size).extractLsb' (8 * l) 8 = s.ramByte start size (j + l) := by
  rw [State.ramWord, extractLsb'_lanes _ _ _ _ l h]
  have hl : l = 0 ∨ l = 1 ∨ l = 2 ∨ l = 3 := by omega
  rcases hl with rfl | rfl | rfl | rfl <;> rfl

/-- The first n lanes of a RAM word write: each index below size is stored, nothing else changes (R56). -/
theorem putWord_prefix (s : State) (start j size : Nat) (v : Word) (hwf : s.mem.wf) (n : Nat) :
    let t := forUp n (fun l u => if j + l < size then State.writeMem u (start + (j + l)) (laneByte v l) else u) s
    t = { s with mem := t.mem } ∧ t.mem.wf ∧
      (∀ l < n, j + l < size → t.mem.read (start + (j + l)) = laneByte v l) ∧
      ∀ a, (∀ l < n, j + l < size → a ≠ start + (j + l)) → t.mem.read a = s.mem.read a := by
  induction n with
  | zero => exact ⟨rfl, hwf, fun l hl => by omega, fun _ _ => rfl⟩
  | succ n ih =>
    obtain ⟨h1, h2, h3, h4⟩ := ih
    simp only [forUp_succ]
    set t := forUp n (fun l u => if j + l < size then State.writeMem u (start + (j + l)) (laneByte v l) else u) s
    split
    · refine ⟨by rw [h1]; rfl, Memory.write_wf h2 _ _, fun l hl hs => ?_, fun a ha => ?_⟩
      · by_cases e : l = n
        · subst e; exact Memory.read_write_same h2 _ _
        · exact (Memory.read_write_other _ _ (by omega)).trans (h3 l (by omega) hs)
      · exact (Memory.read_write_other _ _ (ha n (by omega) ‹_›)).trans
          (h4 a fun l hl hs => ha l (by omega) hs)
    · refine ⟨h1, h2, fun l hl hs => ?_, fun a ha => h4 a fun l hl hs => ha l (by omega) hs⟩
      by_cases e : l = n
      · subst e; contradiction
      · exact h3 l (by omega) hs

/-- A RAM word write: the lanes whose index is below size are stored, nothing else changes (R56, R58). -/
theorem putWord_spec (s : State) (start j size : Nat) (v : Word) (hwf : s.mem.wf) :
    s.putWord start j size v = { s with mem := (s.putWord start j size v).mem } ∧
      (s.putWord start j size v).mem.wf ∧
      (∀ l < 4, j + l < size → (s.putWord start j size v).mem.read (start + (j + l)) = laneByte v l) ∧
      ∀ a, (∀ l < 4, j + l < size → a ≠ start + (j + l)) →
        (s.putWord start j size v).mem.read a = s.mem.read a :=
  putWord_prefix s start j size v hwf 4

/-- A RAM word write inside a RAM keeps every listed cell inside the RAM windows. -/
theorem putWord_inRam (s : State) (start j size : Nat) (v : Word) (h : ∀ t < size, isRam (start + t) = true)
    (hm : ∀ c ∈ s.mem, isRam c.1 = true) : ∀ c ∈ (s.putWord start j size v).mem, isRam c.1 = true := by
  refine forUp_induct (P := fun _ u => ∀ c ∈ State.mem u, isRam c.1 = true) hm fun l u _ hu => ?_
  show ∀ c ∈ (if j + l < size then u.writeMem (start + (j + l)) (laneByte v l) else u).mem, _
  split
  · exact Memory.write_inRam hu _ (h _ ‹_›)
  · exact hu

end Sys2Proof.Machine
end

