-- ==== Sys2Proof/Laws/Counts.lean ====
section
/-! SUPPORT. Counts.lean: the values of the counted functions are those of the functions they count, and their operations
are those of indices and counts alone. -/

namespace Sys2Proof.Machine

/-- A projection that commutes with each iteration commutes with the loop. -/
theorem forUp_map {σ τ : Type} (φ : σ → τ) {f : Nat → σ → σ} {g : Nat → τ → τ} (h : ∀ i y, φ (f i y) = g i (φ y))
    (n : Nat) (x : σ) : φ (forUp n f x) = forUp n g (φ x) := by
  induction n with
  | zero => rfl
  | succ n ih => rw [forUp_succ, forUp_succ, h, ih]

theorem forDown_map {σ τ : Type} (φ : σ → τ) {f : Nat → σ → σ} {g : Nat → τ → τ} (h : ∀ i y, φ (f i y) = g i (φ y))
    (n : Nat) (x : σ) : φ (forDown n f x) = forDown n g (φ x) := by
  induction n generalizing x with
  | zero => rfl
  | succ n ih => rw [forDown_succ, forDown_succ, ih, h]

/-! ### Values -/

@[simp] theorem gmulC_fst (x y : Byte) : (gmulC x y).1 = gmul x y := rfl
@[simp] theorem gmulC_snd (x y : Byte) : (gmulC x y).2 = [.gmul] := rfl
@[simp] theorem loadC_fst (s : State) (x : Nat) : (s.loadC x).1 = s.mem.read x := rfl
@[simp] theorem loadC_snd (s : State) (x : Nat) : (s.loadC x).2 = [.load x] := rfl
@[simp] theorem storeC_fst (s : State) (x : Nat) (v : Byte) : (s.storeC x v).1 = s.writeMem x v := rfl
@[simp] theorem storeC_snd (s : State) (x : Nat) (v : Byte) : (s.storeC x v).2 = [.store x] := rfl

@[simp] theorem ginvC_fst (a : Byte) : (ginvC a).1 = ginv a := by
  simp only [ginvC, ginv, gmulC_fst]
  rw [forUp_map Prod.fst (g := fun _ => ginvStep a) (fun _ _ => rfl)]

@[simp] theorem polyC_fst (s : State) (p : Nat) (x : Byte) : (s.polyC p x).1 = s.poly p x := by
  simp only [State.polyC, State.poly, gmulC_fst, loadC_fst]
  rw [forDown_map Prod.fst (g := fun c y => gmul y x ^^^ s.coef p c) (fun _ _ => rfl)]
  rfl

@[simp] theorem basisProductsC_fst (s : State) (i n : Nat) : (s.basisProductsC i n).1 = s.basisProducts i n := by
  refine forUp_map Prod.fst (fun j nd => ?_) n _
  by_cases h : j = i <;> simp [h, State.sx]

@[simp] theorem basisC_fst (s : State) (i : Nat) : (s.basisC i).1 = s.basis i := by
  simp only [State.basis, State.basisC, gmulC_fst, ginvC_fst, basisProductsC_fst]

@[simp] theorem combC_fst (s : State) (p : Nat) : (s.combC p).1 = s.comb p := by
  refine forUp_map Prod.fst (fun i y => ?_) _ _
  simp [State.sy]

@[simp] theorem createByteSharesC_fst (s : State) (p n : Nat) :
    (s.createByteSharesC p n).1 = s.createByteShares p n := by
  refine forUp_map Prod.fst (fun i y => ?_) _ _
  simp [State.setSx, State.setSy]

@[simp] theorem createRecordC_fst (s : State) (i : Nat) (x : Byte) :
    (s.createRecordC i x).1 = s.createRecord i x := by
  refine forUp_map Prod.fst (fun i y => ?_) _ _
  simp [State.setSy]

@[simp] theorem createSharesC_fst (s : State) (n : Nat) : (s.createSharesC n).1 = s.createShares n := by
  refine forUp_map Prod.fst (fun i y => ?_) _ _
  simp [State.setSx]

@[simp] theorem combineKeyC_fst (s : State) : s.combineKeyC.1 = s.combineKey := by
  refine forUp_map Prod.fst (fun i y => ?_) _ _
  simp [State.setKey]

@[simp] theorem zeroCoefsC_fst (s : State) (k : Nat) : (s.zeroCoefsC k).1 = s.zeroCoefs k :=
  List.foldl_hom (f := Prod.fst) (init := (s, [])) (H := fun _ _ => rfl) (l := drawOrder k) |>.symm

@[simp] theorem drawFromC_fst (k : Nat) (ps : List (Nat × Nat)) (s : State) :
    (State.drawFromC k ps s).map Prod.fst = State.drawFrom k ps s := by
  induction ps generalizing s with
  | nil => rfl
  | cons pc ps ih =>
    cases h : s.rng with
    | nil => simp only [State.drawFromC, State.drawFrom, h, Option.map_none]
    | cons x q =>
      cases x with
      | fail => simp only [State.drawFromC, State.drawFrom, h, Option.map_some, zeroCoefsC_fst]
      | byte v => simp only [State.drawFromC, State.drawFrom, h, Option.map_map]; exact ih _

@[simp] theorem rngdrawC_fst (s : State) : s.rngdrawC.map Prod.fst = s.rngdraw :=
  drawFromC_fst _ _ s

/-! ### The operations: written from indices and counts alone -/

/-- The 13 gmul calls of ginv, whatever its operand (R106). -/
@[simp] theorem ginvC_snd (a : Byte) : (ginvC a).2 = .ginv :: List.replicate 13 .gmul := rfl

/-- poly(p, x) makes for each c from K-1 down to 1, and then for KEY[p], one gmul and one load, whatever x and the
bytes. -/
theorem polyC_snd (s : State) (p : Nat) (x : Byte) :
    (s.polyC p x).2
      = forDown (s.countK - 1) (fun c l => l ++ [Op.gmul] ++ [Op.load (coefAddr p c)]) []
        ++ [Op.gmul] ++ [Op.load (keyAddr p)] := by
  simp only [State.polyC, gmulC_snd, loadC_snd]
  rw [forDown_map Prod.snd (g := fun c l => l ++ [Op.gmul] ++ [Op.load (coefAddr p c)]) (fun _ _ => rfl)]

/-- The products of basis(i) make for each other point two gmul and the loads of its x-value and of SX(i). -/
theorem basisProductsC_snd (s : State) (i n : Nat) :
    (s.basisProductsC i n).2
      = forUp n
          (fun j l => if j = i then l else
            l ++ [.load (sxAddr j), .gmul, .load (sxAddr i), .load (sxAddr j), .gmul]) [] := by
  refine forUp_map Prod.snd (fun j nd => ?_) n _
  by_cases h : j = i <;> simp [h]

theorem basisC_snd (s : State) (i : Nat) :
    (s.basisC i).2 = (s.basisProductsC i s.countM).2 ++ (.ginv :: List.replicate 13 .gmul) ++ [.gmul] := by
  simp only [State.basisC, ginvC_snd, gmulC_snd]

theorem combC_snd (s : State) (p : Nat) :
    (s.combC p).2
      = forUp s.countM (fun i l => l ++ [.load (syAddr i p)] ++ (s.basisC i).2 ++ [.gmul]) [] :=
  forUp_map Prod.snd (fun _ _ => rfl) _ _

/-! ### The operations depend on N, K, M alone -/

theorem polyC_ops {s t : State} (hk : t.countK = s.countK) (p : Nat) (x y : Byte) :
    (t.polyC p x).2 = (s.polyC p y).2 := by
  rw [polyC_snd, polyC_snd, hk]

theorem basisC_ops {s t : State} (hm : t.countM = s.countM) (i : Nat) : (t.basisC i).2 = (s.basisC i).2 := by
  rw [basisC_snd, basisC_snd, basisProductsC_snd, basisProductsC_snd, hm]

theorem combC_ops {s t : State} (hm : t.countM = s.countM) (p : Nat) : (t.combC p).2 = (s.combC p).2 := by
  rw [combC_snd, combC_snd, hm, forUp_congr fun i l _ => by rw [basisC_ops hm]]

/-- What relates the starts of two loops and is carried through each iteration relates their ends. -/
theorem forUp_rel {σ : Type} {R : σ → σ → Prop} {f : Nat → σ → σ} (h : ∀ i x y, R x y → R (f i x) (f i y)) (n : Nat)
    {x y : σ} (h0 : R x y) : R (forUp n f x) (forUp n f y) := by
  induction n with
  | zero => exact h0
  | succ n ih => exact h n _ _ ih

/-- Two counted states with the same operations so far and the same PARAM. -/
structure SameOps (x y : Counted State) : Prop where
  ops : x.2 = y.2
  paramK : x.1.countK = y.1.countK
  paramM : x.1.countM = y.1.countM

theorem createByteSharesC_ops {s t : State} (h : SameOps (t, []) (s, [])) (p n : Nat) :
    SameOps (t.createByteSharesC p n) (s.createByteSharesC p n) :=
  forUp_rel (fun i x y h => ⟨by
    simp only [storeC_snd, h.ops, polyC_snd, storeC_fst]
    rw [show (x.1.writeMem _ _).countK = (y.1.writeMem _ _).countK from h.paramK], h.paramK, h.paramM⟩) n h

theorem createRecordC_ops {s t : State} (h : SameOps (t, []) (s, [])) (i : Nat) (v : Byte) :
    SameOps (t.createRecordC i v) (s.createRecordC i v) :=
  forUp_rel (fun p x y h => ⟨by simp only [storeC_snd, h.ops, polyC_ops h.paramK p v v], h.paramK, h.paramM⟩) 32 h

theorem createSharesC_ops {s t : State} (h : SameOps (t, []) (s, [])) (n : Nat) :
    SameOps (t.createSharesC n) (s.createSharesC n) := by
  refine forUp_rel (fun i x y h => ?_) n h
  dsimp only
  have hr := createRecordC_ops (t := (x.1.storeC (sxAddr i) (BitVec.ofNat 8 (i + 1))).1)
    (s := (y.1.storeC (sxAddr i) (BitVec.ofNat 8 (i + 1))).1) ⟨rfl, h.paramK, h.paramM⟩ i (BitVec.ofNat 8 (i + 1))
  generalize State.createRecordC (x.1.storeC _ _).1 i _ = u at hr ⊢
  generalize State.createRecordC (y.1.storeC _ _).1 i _ = v at hr ⊢
  exact ⟨by rw [h.ops, hr.ops]; rfl, hr.paramK, hr.paramM⟩

theorem combineKeyC_ops {s t : State} (h : SameOps (t, []) (s, [])) : SameOps t.combineKeyC s.combineKeyC :=
  forUp_rel (fun p x y h => ⟨by simp only [storeC_snd, h.ops, combC_ops h.paramM], h.paramK, h.paramM⟩) 32 h

end Sys2Proof.Machine
end

