-- ==== Sys2Proof/Laws/Draw.lean ====
section
/-! SUPPORT. Draw.lean: the random coefficient draw, said once: which coefficients, in which order, and the three ways it
can end (every byte, a fail, no answer). -/

namespace Sys2Proof.Machine

/-! ### The order of the draw -/

theorem mem_drawOrder {k p c : Nat} : (p, c) ∈ drawOrder k ↔ p < 32 ∧ 1 ≤ c ∧ c < k := by
  simp only [drawOrder, List.mem_flatMap, List.mem_map, List.mem_range, Prod.mk.injEq]
  constructor
  · rintro ⟨q, hq, d, hd, rfl, rfl⟩; omega
  · rintro ⟨hp, h1, h2⟩; exact ⟨p, hp, c - 1, by omega, rfl, by omega⟩

/-- The first n byte positions of the draw. -/
theorem length_drawRows (k n : Nat) :
    ((List.range n).flatMap fun p => (List.range (k - 1)).map fun c => (p, c + 1)).length = n * (k - 1) := by
  induction n with
  | zero => simp
  | succ n ih => rw [List.range_succ, List.flatMap_append, List.length_append, ih]; simp [Nat.succ_mul]

theorem length_drawOrder (k : Nat) : (drawOrder k).length = 32 * (k - 1) := length_drawRows k 32

theorem getElem?_drawRows (k n : Nat) {p c : Nat} (hp : p < n) (hc : 1 ≤ c) (hck : c < k) :
    ((List.range n).flatMap fun p => (List.range (k - 1)).map fun c => (p, c + 1))[p * (k - 1) + (c - 1)]?
      = some (p, c) := by
  induction n with
  | zero => omega
  | succ n ih =>
    rw [List.range_succ, List.flatMap_append]
    by_cases hpn : p = n
    · subst hpn
      rw [List.getElem?_append_right (by rw [length_drawRows]; omega), length_drawRows,
        Nat.add_sub_cancel_left]
      simp only [List.flatMap_cons, List.flatMap_nil, List.append_nil, List.getElem?_map]
      rw [List.getElem?_range (by omega)]
      simp; omega
    · rw [List.getElem?_append_left, ih (by omega)]
      rw [length_drawRows]
      have : (p + 1) * (k - 1) ≤ n * (k - 1) := Nat.mul_le_mul_right _ (by omega)
      rw [Nat.succ_mul] at this; omega

/-- The t-th request fills C(p, c) with t = p*(K-1) + (c-1). -/
theorem getElem?_drawOrder (k : Nat) {p c : Nat} (hp : p < 32) (hc : 1 ≤ c) (hck : c < k) :
    (drawOrder k)[p * (k - 1) + (c - 1)]? = some (p, c) := getElem?_drawRows k 32 hp hc hck

/-! ### Storing into the range of a draw -/

/-- The offsets a draw for threshold k fills. -/
def coefRange (k x : Nat) : Prop := ∃ p < 32, ∃ c, 1 ≤ c ∧ c < k ∧ x = coefAddr p c

/-- The bytes `bs` stored in turn at the coefficients `ps`. -/
def State.storeCoefs (s : State) (l : List ((Nat × Nat) × Byte)) : State :=
  l.foldl (fun t x => t.setCoef x.1.1 x.1.2 x.2) s

theorem storeCoefs_onlyRam {k : Nat} (hk : k ≤ 255) (s : State) (l : List ((Nat × Nat) × Byte))
    (hl : ∀ x ∈ l, x.1 ∈ drawOrder k) : OnlyRam s (s.storeCoefs l) (coefRange k) := by
  induction l generalizing s with
  | nil => exact OnlyRam.refl s _
  | cons x l ih =>
    obtain ⟨⟨p, c⟩, v⟩ := x
    obtain ⟨hp, h1, h2⟩ := mem_drawOrder.mp (hl ((p, c), v) (by simp))
    have h := onlyRam_writeMem s (A := coefRange k) v ⟨p, hp, c, h1, h2, rfl⟩ (isRam_coefAddr hp h1 (by omega))
    exact h.trans (ih _ fun y hy => hl y (by simp [hy]))

/-- A coefficient that no later entry stores to keeps its value. -/
theorem storeCoefs_other {k : Nat} (hk : k ≤ 255) (s : State) (l : List ((Nat × Nat) × Byte))
    (hl : ∀ x ∈ l, x.1 ∈ drawOrder k) {p c : Nat} (hpc : (p, c) ∈ drawOrder k) (hn : ∀ x ∈ l, x.1 ≠ (p, c)) :
    (s.storeCoefs l).coef p c = s.coef p c := by
  induction l generalizing s with
  | nil => rfl
  | cons x l ih =>
    obtain ⟨⟨q, d⟩, v⟩ := x
    obtain ⟨hq, h1, h2⟩ := mem_drawOrder.mp (hl ((q, d), v) (by simp))
    obtain ⟨hp, h3, h4⟩ := mem_drawOrder.mp hpc
    refine (ih _ (fun y hy => hl y (by simp [hy])) fun y hy => hn y (by simp [hy])).trans ?_
    refine Memory.read_write_other _ _ fun he => hn ((q, d), v) (by simp) ?_
    rw [coefAddr_inj h3 (by omega) h1 (by omega)] at he
    rw [he.1, he.2]

/-- Each coefficient stored once holds the byte stored there. -/
theorem storeCoefs_at {k : Nat} (hk : k ≤ 255) (s : State) (hwf : s.mem.wf) (l : List ((Nat × Nat) × Byte))
    (hl : ∀ x ∈ l, x.1 ∈ drawOrder k) (hnd : (l.map Prod.fst).Nodup) {p c : Nat} {v : Byte} (h : ((p, c), v) ∈ l) :
    (s.storeCoefs l).coef p c = v := by
  induction l generalizing s with
  | nil => simp at h
  | cons x l ih =>
    rw [List.map_cons, List.nodup_cons] at hnd
    have hw : (s.setCoef x.1.1 x.1.2 x.2).mem.wf := Memory.write_wf hwf _ _
    rcases List.mem_cons.mp h with rfl | h
    · refine (storeCoefs_other hk _ l (fun y hy => hl y (by simp [hy])) (hl ((p, c), v) (by simp))
        fun y hy he => hnd.1 (List.mem_map.mpr ⟨y, hy, he⟩)).trans ?_
      exact Memory.read_write_same hwf _ _
    · exact ih _ hw (fun y hy => hl y (by simp [hy])) hnd.2 h

theorem drawOrder_nodup (k : Nat) : (drawOrder k).Nodup := by
  rw [drawOrder, List.nodup_flatMap]
  refine ⟨fun p _ => (List.nodup_range).map fun a b h => by simpa using h, ?_⟩
  refine List.nodup_range.imp fun {p q} hpq => ?_
  intro x hx hy
  simp only [List.mem_map] at hx hy
  obtain ⟨c, _, rfl⟩ := hx
  obtain ⟨d, _, h⟩ := hy
  exact hpq (by simpa using (congrArg Prod.fst h).symm)

/-! ### Zeroising -/

theorem zeroCoefs_eq (s : State) (k : Nat) :
    s.zeroCoefs k = s.storeCoefs ((drawOrder k).map fun pc => (pc, 0)) := by
  rw [State.zeroCoefs, State.storeCoefs, List.foldl_map]

theorem zeroCoefs_onlyRam {k : Nat} (hk : k ≤ 255) (s : State) : OnlyRam s (s.zeroCoefs k) (coefRange k) := by
  rw [zeroCoefs_eq]
  exact storeCoefs_onlyRam hk s _ fun x hx => by
    obtain ⟨pc, hpc, rfl⟩ := List.mem_map.mp hx
    exact hpc

theorem zeroCoefs_zero {k : Nat} (hk : k ≤ 255) (s : State) (hwf : s.mem.wf) {p c : Nat} (hp : p < 32) (h1 : 1 ≤ c)
    (h2 : c < k) : (s.zeroCoefs k).coef p c = 0 := by
  rw [zeroCoefs_eq]
  refine storeCoefs_at hk s hwf _ (fun x hx => ?_) ?_ (List.mem_map.mpr ⟨(p, c), mem_drawOrder.mpr ⟨hp, h1, h2⟩, rfl⟩)
  · obtain ⟨pc, hpc, rfl⟩ := List.mem_map.mp hx
    exact hpc
  · rw [List.map_map]; simpa [Function.comp_def] using drawOrder_nodup k

/-! ### The three ways a draw ends -/

/-- Where the source supplies a byte for each of the first requests, they are stored and the draw goes on. -/
theorem drawFrom_bytes (k : Nat) (ps rest : List (Nat × Nat)) (bs : List Byte) (q : List RngAnswer) (s : State)
    (hlen : bs.length = ps.length) (hr : s.rng = bs.map .byte ++ q) :
    State.drawFrom k (ps ++ rest) s = State.drawFrom k rest { s.storeCoefs (ps.zip bs) with rng := q } := by
  induction ps generalizing bs s with
  | nil =>
    obtain rfl : bs = [] := by simpa using hlen
    obtain rfl : s.rng = q := by simpa using hr
    rfl
  | cons pc ps ih =>
    cases bs with
    | nil => simp at hlen
    | cons b bs =>
      have hr' : s.rng = .byte b :: (bs.map .byte ++ q) := by simpa using hr
      rw [List.cons_append, State.drawFrom, hr']
      simp only
      rw [ih bs _ (by simpa using hlen) rfl]
      congr 2
      rw [List.zip_cons_cons]
      have hfold : ∀ (l : List ((Nat × Nat) × Byte)) (t : State) (r : List RngAnswer),
          ({ t with rng := r } : State).storeCoefs l = { t.storeCoefs l with rng := r } := by
        intro l
        induction l with
        | nil => intro t r; rfl
        | cons x l ih => intro t r; exact ih (t.setCoef x.1.1 x.1.2 x.2) r
      show { ({ s.setCoef pc.1 pc.2 b with rng := _ } : State).storeCoefs (ps.zip bs) with rng := q } = _
      rw [hfold]; rfl

/-- Every request answered with a byte. -/
theorem drawFrom_ok (k : Nat) (ps : List (Nat × Nat)) (bs : List Byte) (q : List RngAnswer) (s : State)
    (hlen : bs.length = ps.length) (hr : s.rng = bs.map .byte ++ q) :
    State.drawFrom k ps s = some (.ok, { s.storeCoefs (ps.zip bs) with rng := q }) := by
  have h := drawFrom_bytes k ps [] bs q s hlen hr
  rw [List.append_nil] at h
  rw [h, State.drawFrom]

/-- A fail among the answers: no request after it, and the range is zeroised. -/
theorem drawFrom_fail (k : Nat) (ps : List (Nat × Nat)) (bs : List Byte) (q : List RngAnswer) (s : State)
    (hlen : bs.length < ps.length) (hr : s.rng = bs.map .byte ++ .fail :: q) :
    State.drawFrom k ps s
      = some (.randomSourceExhausted, { s.storeCoefs ((ps.take bs.length).zip bs) with rng := q }.zeroCoefs k) := by
  have h := drawFrom_bytes k (ps.take bs.length) (ps.drop bs.length) bs (.fail :: q) s
    (by rw [List.length_take]; omega) hr
  rw [List.take_append_drop] at h
  rw [h]
  obtain ⟨pc, l, hd⟩ : ∃ pc l, ps.drop bs.length = pc :: l :=
    List.exists_cons_of_ne_nil fun he => by rw [List.drop_eq_nil_iff] at he; omega
  rw [hd, State.drawFrom]

/-- Too few answers, none of them a fail: the draw does not end. -/
theorem drawFrom_none (k : Nat) (ps : List (Nat × Nat)) (bs : List Byte) (s : State) (hlen : bs.length < ps.length)
    (hr : s.rng = bs.map .byte) : State.drawFrom k ps s = none := by
  have h := drawFrom_bytes k (ps.take bs.length) (ps.drop bs.length) bs [] s
    (by rw [List.length_take]; omega) (by simpa using hr)
  rw [List.take_append_drop] at h
  rw [h]
  obtain ⟨pc, l, hd⟩ : ∃ pc l, ps.drop bs.length = pc :: l :=
    List.exists_cons_of_ne_nil fun he => by rw [List.drop_eq_nil_iff] at he; omega
  rw [hd, State.drawFrom]

/-- Every list of answers is of one of the three kinds. -/
theorem rng_cases (n : Nat) (r : List RngAnswer) :
    (∃ (bs : List Byte) (q : List RngAnswer), bs.length = n ∧ r = bs.map .byte ++ q) ∨
    (∃ (bs : List Byte) (q : List RngAnswer), bs.length < n ∧ r = bs.map .byte ++ .fail :: q) ∨
    (∃ bs : List Byte, bs.length < n ∧ r = bs.map .byte) := by
  induction n generalizing r with
  | zero => exact .inl ⟨[], r, rfl, rfl⟩
  | succ n ih =>
    cases r with
    | nil => exact .inr (.inr ⟨[], by simp, rfl⟩)
    | cons a r =>
      cases a with
      | fail => exact .inr (.inl ⟨[], r, by simp, rfl⟩)
      | byte b =>
        rcases ih r with ⟨bs, q, hl, rfl⟩ | ⟨bs, q, hl, rfl⟩ | ⟨bs, hl, rfl⟩
        · exact .inl ⟨b :: bs, q, by simp [hl], rfl⟩
        · exact .inr (.inl ⟨b :: bs, q, by simpa using hl, rfl⟩)
        · exact .inr (.inr ⟨b :: bs, by simpa using hl, rfl⟩)

/-! ### rngdraw -/

/-- A draw whose requests are all answered: each coefficient holds its answer, in the order of the requests. -/
theorem rngdraw_ok (s : State) (hwf : s.mem.wf) (bs : List Byte) (q : List RngAnswer)
    (hlen : bs.length = 32 * (s.countK - 1)) (hr : s.rng = bs.map .byte ++ q) :
    ∃ u, s.rngdraw = some (.ok, { u with rng := q }) ∧ OnlyRam s u (coefRange s.countK) ∧
      ∀ p c, p < 32 → 1 ≤ c → c < s.countK → bs[p * (s.countK - 1) + (c - 1)]? = some (u.coef p c) := by
  have hk := countK_le s
  have hl : bs.length = (drawOrder s.countK).length := by rw [length_drawOrder, hlen]
  have hmem : ∀ x ∈ (drawOrder s.countK).zip bs, x.1 ∈ drawOrder s.countK := fun x hx => (List.of_mem_zip hx).1
  refine ⟨_, drawFrom_ok _ _ bs q s hl hr, storeCoefs_onlyRam hk s _ hmem, fun p c hp h1 h2 => ?_⟩
  have hi := getElem?_drawOrder s.countK hp h1 h2
  set t := p * (s.countK - 1) + (c - 1)
  have ht : t < bs.length := by
    rw [hl]; exact (List.getElem?_eq_some_iff.mp hi).1
  rw [List.getElem?_eq_getElem ht]
  refine congrArg some (storeCoefs_at hk s hwf _ hmem ?_ (List.mem_iff_getElem?.mpr ⟨t, ?_⟩)).symm
  · rw [List.map_fst_zip (by omega)]; exact drawOrder_nodup _
  · rw [List.getElem?_zip_eq_some]; exact ⟨hi, List.getElem?_eq_getElem ht⟩

/-- A draw with a fail: the whole range is 0x00 and nothing else has changed but the answers used. -/
theorem rngdraw_fail (s : State) (bs : List Byte) (q : List RngAnswer)
    (hlen : bs.length < 32 * (s.countK - 1)) (hr : s.rng = bs.map .byte ++ .fail :: q) :
    ∃ u, s.rngdraw = some (.randomSourceExhausted, { u with rng := q }) ∧ OnlyRam s u (coefRange s.countK) ∧
      (s.mem.wf → ∀ p c, p < 32 → 1 ≤ c → c < s.countK → u.coef p c = 0) := by
  have hk := countK_le s
  set l := ((drawOrder s.countK).take bs.length).zip bs
  have hmem : ∀ x ∈ l, x.1 ∈ drawOrder s.countK := fun x hx => List.mem_of_mem_take (List.of_mem_zip hx).1
  have h1 := storeCoefs_onlyRam hk s l hmem
  have h2 := zeroCoefs_onlyRam hk (s.storeCoefs l)
  refine ⟨(s.storeCoefs l).zeroCoefs s.countK, ?_, h1.trans h2, fun hwf p c hp hc hck =>
    zeroCoefs_zero hk _ (h1.wf hwf) hp hc hck⟩
  rw [State.rngdraw, drawFrom_fail _ _ bs q s (by rw [length_drawOrder]; exact hlen) hr]
  congr 2
  have hfold : ∀ (ps : List (Nat × Nat)) (t : State),
      ps.foldl (fun t pc => t.setCoef pc.1 pc.2 0) { t with rng := q }
        = { ps.foldl (fun t pc => t.setCoef pc.1 pc.2 0) t with rng := q } := by
    intro ps
    induction ps with
    | nil => intro t; rfl
    | cons pc ps ih => intro t; exact ih (t.setCoef pc.1 pc.2 0)
  exact hfold _ _

/-- A draw with too few answers does not end. -/
theorem rngdraw_none (s : State) (bs : List Byte) (hlen : bs.length < 32 * (s.countK - 1))
    (hr : s.rng = bs.map .byte) : s.rngdraw = none :=
  drawFrom_none _ _ bs s (by rw [length_drawOrder]; exact hlen) hr

/-- What a draw can do. -/
theorem rngdraw_cases (s : State) :
    s.rngdraw = none ∨ ∃ e u q, s.rngdraw = some (e, { u with rng := q }) ∧ OnlyRam s u (coefRange s.countK) ∧
      (e = .ok ∨ e = .randomSourceExhausted) := by
  rcases rng_cases (32 * (s.countK - 1)) s.rng with ⟨bs, q, hl, hr⟩ | ⟨bs, q, hl, hr⟩ | ⟨bs, hl, hr⟩
  · have hk := countK_le s
    exact .inr ⟨.ok, _, q, drawFrom_ok _ _ bs q s (by rw [length_drawOrder, hl]) hr,
      storeCoefs_onlyRam hk s _ fun x hx => (List.of_mem_zip hx).1, .inl rfl⟩
  · obtain ⟨u, h, hO, _⟩ := rngdraw_fail s bs q hl hr
    exact .inr ⟨_, u, q, h, hO, .inr rfl⟩
  · exact .inl (rngdraw_none s bs hl hr)

end Sys2Proof.Machine
end

