-- ==== Sys2Proof/Laws/PerInstr.lean ====
section
/-! SUPPORT. PerInstr.lean: the family RowShape, one lemma per command: the word of a well-formed command carries its
row's match bits under its row's mask (spec/30_encoding.md R84). -/

namespace Sys2Proof.Laws

/-- `(encode i AND mask) = match` for a well-formed command i. -/
def RowShape.Statement (i : Instr) : Prop := i.wellFormed = true → encode i &&& i.maskWord = i.matchWord

theorem RowShape.nop : RowShape.Statement .nop := fun _ => by decide
theorem RowShape.add : RowShape.Statement .add := fun _ => by decide
theorem RowShape.mul : RowShape.Statement .mul := fun _ => by decide
theorem RowShape.inv : RowShape.Statement .inv := fun _ => by decide
theorem RowShape.rngfill : RowShape.Statement .rngfill := fun _ => by decide
theorem RowShape.kshare : RowShape.Statement .kshare := fun _ => by decide
theorem RowShape.kcreate : RowShape.Statement .kcreate := fun _ => by decide
theorem RowShape.kcomb : RowShape.Statement .kcomb := fun _ => by decide
theorem RowShape.zero : RowShape.Statement .zero := fun _ => by decide

/-- A row with field P: every value of P (R82). -/
theorem rowShape_p : ∀ p < 32, ((0x00000010 : Word) ||| BitVec.ofNat 32 p <<< 8) &&& 0xFFFFE0FF = 0x00000010
    ∧ ((0x00000011 : Word) ||| BitVec.ofNat 32 p <<< 8) &&& 0xFFFFE0FF = 0x00000011
    ∧ ((0x00000013 : Word) ||| BitVec.ofNat 32 p <<< 8) &&& 0xFFFFE0FF = 0x00000013 := by decide

/-- The row with field I: every value of I (R82). -/
theorem rowShape_i : ∀ i < 256, ((0x00000012 : Word) ||| BitVec.ofNat 32 i <<< 16) &&& 0xFF00FFFF = 0x00000012 := by
  decide +kernel

theorem RowShape.eval (p : Nat) : RowShape.Statement (.eval p) := fun h => (rowShape_p p (of_decide_eq_true h)).1
theorem RowShape.bshare (p : Nat) : RowShape.Statement (.bshare p) := fun h => (rowShape_p p (of_decide_eq_true h)).2.1
theorem RowShape.bcomb (p : Nat) : RowShape.Statement (.bcomb p) := fun h => (rowShape_p p (of_decide_eq_true h)).2.2
theorem RowShape.basis (i : Nat) : RowShape.Statement (.basis i) := fun h => rowShape_i i (of_decide_eq_true h)

end Sys2Proof.Laws
end

