-- ==== Sys2Proof/Laws/Sharing.lean ====
section
/-! SUPPORT. Sharing.lean: what each loop of the sharing commands does, said once: the bytes it stores and their
values. -/

namespace Sys2Proof.Machine

/-! ### BSHARE -/

/-- The offsets BSHARE p stores to for n records. -/
def byteShareAddrs (p n x : Nat) : Prop := ∃ i < n, x = sxAddr i ∨ x = syAddr i p

theorem createByteShares_onlyRam (s : State) {p n : Nat} (hp : p < 32) (hn : n ≤ 255) :
    OnlyRam s (s.createByteShares p n) (byteShareAddrs p n) := by
  refine forUp_induct (P := fun _ t => OnlyRam s t (byteShareAddrs p n)) (OnlyRam.refl s _) fun i t hi ih => ?_
  refine ih.trans ((onlyRam_writeMem t _ ?_ (isRam_sxAddr (by omega))).trans
    (onlyRam_writeMem _ _ ?_ (isRam_syAddr (by omega) hp)))
  · exact ⟨i, hi, .inl rfl⟩
  · exact ⟨i, hi, .inr rfl⟩

/-- Record i of the first n holds the point (i+1, poly(p, i+1)) at position p. -/
theorem createByteShares_points (s : State) (hwf : s.mem.wf) {p n : Nat} (hp : p < 32) (hn : n ≤ 255) :
    ∀ i < n, (s.createByteShares p n).sx i = BitVec.ofNat 8 (i + 1) ∧
      (s.createByteShares p n).sy i p = s.poly p (BitVec.ofNat 8 (i + 1)) := by
  induction n with
  | zero => intro i hi; omega
  | succ n ih =>
    have hO := createByteShares_onlyRam s hp (n := n) (by omega)
    intro i hi
    show ((s.createByteShares p n).setSx n _ |>.setSy n p _).sx i = _ ∧ _ = _
    set t := s.createByteShares p n with ht
    set x := BitVec.ofNat 8 (n + 1)
    have hpoly : (t.setSx n x).poly p x = s.poly p x :=
      (hO.mono (B := inShare) (by
        rintro y ⟨j, hj, rfl | rfl⟩
        · exact inShare_sxAddr (by omega)
        · exact inShare_syAddr (by omega) hp) |>.trans
        (onlyRam_writeMem t x (inShare_sxAddr (i := n) (by omega)) (isRam_sxAddr (by omega)))).poly_eq
          (fun _ h => h) hp x
    have hw1 := Memory.write_wf (hO.wf hwf) (sxAddr n) x
    constructor
    · show ((t.mem.write (sxAddr n) x).write (syAddr n p) _).read (sxAddr i) = _
      rw [Memory.read_write_other _ _ (sxAddr_ne_syAddr hp)]
      by_cases hin : i = n
      · subst hin; exact Memory.read_write_same (hO.wf hwf) _ _
      · rw [Memory.read_write_other _ _ (by rw [Ne, sxAddr_inj]; exact hin)]
        exact (ih (by omega) i (by omega)).1
    · show ((t.mem.write (sxAddr n) x).write (syAddr n p) ((t.setSx n x).poly p x)).read (syAddr i p) = _
      by_cases hin : i = n
      · subst hin; rw [Memory.read_write_same hw1, hpoly]
      · rw [Memory.read_write_other _ _ (by rw [Ne, syAddr_inj hp hp]; exact fun h => hin h.1),
          Memory.read_write_other _ _ (sxAddr_ne_syAddr hp).symm]
        exact (ih (by omega) i (by omega)).2

/-! ### KSHARE and KCREATE -/

/-- The offsets of the y bytes of record i. -/
def recordYAddrs (i x : Nat) : Prop := ∃ p < 32, x = syAddr i p

/-- The offsets of the records 0..n-1. -/
def recordAddrs (n x : Nat) : Prop := ∃ i < n, x = sxAddr i ∨ recordYAddrs i x

theorem recordAddrs_inShare {n : Nat} (hn : n ≤ 255) (x : Nat) (h : recordAddrs n x) : inShare x := by
  obtain ⟨i, hi, rfl | ⟨p, hp, rfl⟩⟩ := h
  · exact inShare_sxAddr (by omega)
  · exact inShare_syAddr (by omega) hp

theorem createRecord_prefix (s : State) (i : Nat) (x : Byte) (hi : i < 255) (hwf : s.mem.wf) {n : Nat} (hn : n ≤ 32) :
    OnlyRam s (forUp n (fun p t => t.setSy i p (t.poly p x)) s) (recordYAddrs i) ∧
      ∀ p < n, (forUp n (fun p t => t.setSy i p (t.poly p x)) s).sy i p = s.poly p x := by
  induction n with
  | zero => exact ⟨OnlyRam.refl s _, fun p hp => by omega⟩
  | succ n ih =>
    obtain ⟨hO, hv⟩ := ih (by omega)
    rw [forUp_succ]
    set t := forUp n (fun p t => State.setSy t i p (t.poly p x)) s
    have hpoly : t.poly n x = s.poly n x :=
      hO.poly_eq (fun y ⟨p, hp, hy⟩ => hy ▸ inShare_syAddr hi hp) (by omega) x
    refine ⟨hO.trans (onlyRam_writeMem t _ ⟨n, by omega, rfl⟩ (isRam_syAddr hi (by omega))), fun p hp => ?_⟩
    show (t.mem.write (syAddr i n) _).read (syAddr i p) = _
    by_cases hpn : p = n
    · subst hpn; rw [Memory.read_write_same (hO.wf hwf), hpoly]
    · rw [Memory.read_write_other _ _ (by rw [Ne, syAddr_inj (by omega) (by omega)]; exact fun h => hpn h.2)]
      exact hv p (by omega)

theorem createRecord_spec (s : State) (i : Nat) (x : Byte) (hi : i < 255) (hwf : s.mem.wf) :
    OnlyRam s (s.createRecord i x) (recordYAddrs i) ∧ ∀ p < 32, (s.createRecord i x).sy i p = s.poly p x :=
  createRecord_prefix s i x hi hwf (le_refl 32)

theorem createRecord_onlyRam (s : State) (i : Nat) (x : Byte) (hi : i < 255) :
    OnlyRam s (s.createRecord i x) (recordYAddrs i) :=
  forUp_induct (P := fun _ t => OnlyRam s t (recordYAddrs i)) (OnlyRam.refl s _) fun p t hp ih =>
    ih.trans (onlyRam_writeMem t _ ⟨p, hp, rfl⟩ (isRam_syAddr hi hp))

theorem createShares_onlyRam (s : State) {n : Nat} (hn : n ≤ 255) :
    OnlyRam s (s.createShares n) (recordAddrs n) := by
  refine forUp_induct (P := fun _ t => OnlyRam s t (recordAddrs n)) (OnlyRam.refl s _) fun i t hi ih => ?_
  have hx := onlyRam_writeMem t (A := recordAddrs n) (BitVec.ofNat 8 (i + 1)) ⟨i, hi, .inl rfl⟩ (isRam_sxAddr (by omega))
  refine ih.trans (hx.trans ?_)
  exact (createRecord_onlyRam _ i _ (by omega)).mono fun x hx => ⟨i, hi, .inr hx⟩

/-- Record i of the first n holds x = i+1 and the 32 y bytes poly(p, i+1). -/
theorem createShares_records (s : State) (hwf : s.mem.wf) {n : Nat} (hn : n ≤ 255) :
    ∀ i < n, (s.createShares n).sx i = BitVec.ofNat 8 (i + 1) ∧
      ∀ p < 32, (s.createShares n).sy i p = s.poly p (BitVec.ofNat 8 (i + 1)) := by
  induction n with
  | zero => intro i hi; omega
  | succ n ih =>
    have hO := createShares_onlyRam s (n := n) (by omega)
    intro i hi
    show ((((s.createShares n).setSx n _).createRecord n _).sx i = _) ∧
      ∀ p < 32, (((s.createShares n).setSx n _).createRecord n _).sy i p = _
    set t := s.createShares n with ht
    set x := BitVec.ofNat 8 (n + 1)
    have hw := hO.wf hwf
    have hsx := onlyRam_writeMem t x (inShare_sxAddr (i := n) (by omega)) (isRam_sxAddr (i := n) (by omega))
    obtain ⟨hR, hv⟩ := createRecord_spec (t.setSx n x) n x (by omega) (Memory.write_wf hw (sxAddr n) x)
    have hpoly : ∀ p < 32, (t.setSx n x).poly p x = s.poly p x := fun p hp =>
      ((hO.mono (recordAddrs_inShare (by omega))).trans hsx).poly_eq (fun _ h => h) hp x
    have hx : ((t.setSx n x).createRecord n x).sx i = (t.setSx n x).sx i :=
      hR.unchanged _ fun ⟨p, hp, h⟩ => sxAddr_ne_syAddr hp h
    by_cases hin : i = n
    · subst hin
      refine ⟨hx.trans (Memory.read_write_same hw _ _), fun p hp => ?_⟩
      rw [hv p hp, hpoly p hp]
    · have hold := ih (by omega) i (by omega)
      refine ⟨hx.trans ?_, fun p hp => ?_⟩
      · exact (Memory.read_write_other _ _ (by rw [Ne, sxAddr_inj]; exact hin)).trans hold.1
      · have h1 : ((t.setSx n x).createRecord n x).sy i p = (t.setSx n x).sy i p :=
          hR.unchanged _ fun ⟨q, hq, h⟩ => hin ((syAddr_inj hp hq).mp h).1
        exact h1.trans ((Memory.read_write_other _ _ (sxAddr_ne_syAddr hp).symm).trans (hold.2 p hp))

/-! ### KCOMB -/

/-- The offsets of KEY. -/
def keyAddrs (x : Nat) : Prop := ∃ p < 32, x = keyAddr p

theorem keyAddrs_lt (x : Nat) (h : keyAddrs x) : x < 0x120 := by
  obtain ⟨p, hp, rfl⟩ := h
  simp only [keyAddr]; omega

theorem combineKey_prefix (s : State) {n : Nat} (hn : n ≤ 32) :
    OnlyRam s (forUp n (fun p t => t.setKey p (t.comb p)) s) keyAddrs :=
  forUp_induct (P := fun _ t => OnlyRam s t keyAddrs) (OnlyRam.refl s _) fun p t hp ih =>
    ih.trans (onlyRam_writeMem t _ ⟨p, by omega, rfl⟩ (isRam_keyAddr (by omega)))

theorem combineKey_onlyRam (s : State) : OnlyRam s s.combineKey keyAddrs := combineKey_prefix s (le_refl 32)

/-- KEY[p] becomes comb(p), all computed from the state before. -/
theorem combineKey_key (s : State) (hwf : s.mem.wf) : ∀ p < 32, s.combineKey.key p = s.comb p := by
  have main : ∀ n ≤ 32, ∀ p < n, (forUp n (fun p t => State.setKey t p (t.comb p)) s).key p = s.comb p := by
    intro n
    induction n with
    | zero => intro _ p hp; omega
    | succ n ih =>
      intro hn p hp
      have hO := combineKey_prefix s (n := n) (by omega)
      rw [forUp_succ]
      set t := forUp n (fun p t => State.setKey t p (t.comb p)) s
      show (t.mem.write (keyAddr n) (t.comb n)).read (keyAddr p) = _
      by_cases hpn : p = n
      · subst hpn
        rw [Memory.read_write_same (hO.wf hwf), hO.comb_eq keyAddrs_lt]
      · rw [Memory.read_write_other _ _ (by rw [Ne, keyAddr_inj]; exact hpn)]
        exact ih (by omega) p (by omega)
  exact main 32 (le_refl 32)

end Sys2Proof.Machine
end

