-- ==== Sys2Proof/Tests/Slice0.lean ====
section
/-! SUPPORT. Slice0.lean: tests with expected results from spec/95_test_vectors.md and the command rules, and for each
statement that has hypotheses a concrete state and operands that meet them. -/

namespace Sys2Proof.Tests

open Sys2Proof.Machine Sys2Proof.Reference

/-! ### Helpers -/

/-- The state after reset and the reset clear ("from reset" in spec/95_test_vectors.md). -/
def ready : State := { State.reset with pend := .none }

/-- A field of the next state, if there is one. -/
def after {α : Type} (o : Host.Outcome State Fault Refusal) (f : State → α) : Option α :=
  match o with
  | .next s => some (f s)
  | .fault _ => none
  | .refused _ => none

/-- RAM bytes listed by offset. -/
def ram (l : List Host.Cell) : Memory := l.foldl (fun m c => m.write c.1 c.2) []

/-- The setup of V10 to V13: KEY[0] = 0x42, C(0,1) = 0x17, C(0,2) = 0x55, K = 3. -/
def v10 : State :=
  { ready with mem := ram [(keyAddr 0, 0x42), (coefAddr 0 1, 0x17), (coefAddr 0 2, 0x55)], paramK := 3 }

/-- Points (x, y at position 0) in records 0, 1, ... and M their number. -/
def points (l : List (Byte × Byte)) : State :=
  { ready with
    mem := ram (l.zipIdx.flatMap fun x => [(sxAddr x.2, x.1.1), (syAddr x.2 0, x.1.2)])
    paramM := BitVec.ofNat 8 l.length }

/-- ERR after a command. -/
def errOf (i : Instr) (s : State) : Option ErrCode := after (exec i s) (·.err)

/-! ### WellFormed: an ill-formed term for each check -/

theorem test_eval_p_refused : (Instr.eval 32).wellFormed = false := by decide
theorem test_bshare_p_refused : (Instr.bshare 32).wellFormed = false := by decide
theorem test_bcomb_p_refused : (Instr.bcomb 32).wellFormed = false := by decide
theorem test_basis_i_refused : (Instr.basis 256).wellFormed = false := by decide

/-! ### Decoding: words written out from the patterns of spec/30_encoding.md R84, in groups of 8 bits -/

theorem test_decode_nop : decode 0b00000000_00000000_00000000_00000000 = some .nop := by decide
theorem test_decode_add : decode 0b00000000_00000000_00000000_00000001 = some .add := by decide
theorem test_decode_mul : decode 0b00000000_00000000_00000000_00000010 = some .mul := by decide
theorem test_decode_inv : decode 0b00000000_00000000_00000000_00000011 = some .inv := by decide
theorem test_decode_eval : decode 0b00000000_00000000_00010110_00010000 = some (.eval 22) := by decide
theorem test_decode_bshare : decode 0b00000000_00000000_00001101_00010001 = some (.bshare 13) := by decide
theorem test_decode_basis : decode 0b00000000_10110001_00000000_00010010 = some (.basis 177) := by decide
theorem test_decode_bcomb : decode 0b00000000_00000000_00011111_00010011 = some (.bcomb 31) := by decide
theorem test_decode_rngfill : decode 0b00000000_00000000_00000000_00100000 = some .rngfill := by decide
theorem test_decode_kshare : decode 0b00000000_00000000_00000000_00100001 = some .kshare := by decide
theorem test_decode_kcreate : decode 0b00000000_00000000_00000000_00100010 = some .kcreate := by decide
theorem test_decode_kcomb : decode 0b00000000_00000000_00000000_00100011 = some .kcomb := by decide
theorem test_decode_zero : decode 0b00000000_00000000_00000000_00110000 = some .zero := by decide

/-- V31 to V34: a used opcode with an unused field, an undefined opcode, reserved bits 24 and 13. -/
theorem test_decode_illegal :
    decode 0x00000102 = none ∧ decode 0x00000004 = none ∧ decode 0x01000002 = none ∧ decode 0x00002010 = none := by
  decide

theorem test_decodeTableWord : decodeTableWord 32 0x00FF0012 = some (.basis 255) := by decide

/-! ### Field arithmetic (V3, V4, V9) -/

theorem test_nop : after (exec .nop { ready with r := 7 }) (fun t => (t.r, t.statusWord)) = some (7, 2) := by decide
theorem test_add : after (exec .add { ready with a := 0x57, b := 0x83 }) (·.r) = some 0xD4 := by decide
theorem test_mul : after (exec .mul { ready with a := 0x57, b := 0x83 }) (·.r) = some 0xC1 := by decide
theorem test_mul_reduces : gmul 0x80 0x02 = 0x1B ∧ gmul 0xFF 0xFF = 0x13 ∧ gmul 0x1B 0x1B = 0x5E := by decide
theorem test_inv : after (exec .inv { ready with a := 0x53 }) (·.r) = some 0xCA := by decide +kernel
theorem test_inv_zero : after (exec .inv { ready with a := 0x00, r := 9 }) (fun t => (t.r, t.err)) = some (0, .ok) := by
  decide +kernel

/-! ### Byte sharing (V10 to V13) -/

theorem test_eval : after (exec (.eval 0) { v10 with a := 0x02 }) (·.r) = some 0x23 := by decide +kernel
theorem test_eval_threshold_zero : after (exec (.eval 0) { v10 with paramK := 0, r := 9 }) (fun t => (t.r, t.statusWord))
    = some (9, 0x22) := by decide +kernel

/-- V11: the words at SHARE+0x20 and SHARE+0x84. -/
theorem test_bshare : after (exec (.bshare 0) { v10 with paramN := 5 }) (fun t => (t.busRead 0x4020, t.busRead 0x4084))
    = some (0x00230200, 0x00007B05) := by decide +kernel
theorem test_bshare_k_above_n : errOf (.bshare 0) { ready with paramN := 4, paramK := 6 } = some .invalidParameters := by
  decide +kernel
theorem test_basis : after (exec (.basis 2) (points [(2, 0), (4, 0), (5, 0)])) (·.r) = some 0xD2 := by decide +kernel
theorem test_basis_index : errOf (.basis 3) (points [(1, 0), (2, 0), (3, 0)]) = some .invalidParameters := by
  decide +kernel
theorem test_bcomb : after (exec (.bcomb 0) (points [(5, 0x7B), (1, 0x00), (3, 0x61)])) (·.key 0) = some 0x42 := by
  decide +kernel
theorem test_bcomb_duplicate : after (exec (.bcomb 0) (points [(3, 0x61), (3, 0x61)])) (fun t => (t.key 0, t.err))
    = some (0, .ok) := by decide +kernel

/-! ### Key sharing (V20 to V24) -/

/-- The answers of V20. -/
def v20Answers : List RngAnswer := (List.range 32).map fun t => .byte (BitVec.ofNat 8 (7 * t + 0x11))

/-- N = 3, K = 2 and KEY[p] = p. -/
def v20 : State :=
  { ready with
    paramN := 3, paramK := 2, rng := v20Answers
    mem := ram ((List.range 32).map fun p => (keyAddr p, BitVec.ofNat 8 p)) }

theorem test_rngfill : after (exec .rngfill v20) (fun t => (t.busRead 0x1000, t.busRead 0x10FC, t.rng))
    = some (0x00000011, 0x00180000, []) := by decide +kernel

/-- V25: no answer, no step. -/
theorem test_rngfill_waits : after (exec .rngfill { v20 with rng := [], pend := .cmd 0x20 }) (fun t => (t.pend, t.busRead 0x8))
    = some (.cmd 0x20, 1) := by decide +kernel

/-- V22 with V21: the words at SHARE+0x00, SHARE+0x20 and SHARE+0x60. -/
theorem test_kcreate :
    after (exec .kcreate v20) (fun t => (t.busRead 0x4000, t.busRead 0x4020, t.busRead 0x4060, t.statusWord))
      = some (0x1D191101, 0x312202F5, 0x003A2062, 2) := by decide +kernel

/-- V24, P5: ten bytes and a fail. -/
theorem test_kcreate_fail :
    after (exec .kcreate
        { ready with paramN := 3, paramK := 3, rng := List.replicate 10 (.byte 0xAA) ++ [.fail, .byte 1]
                     mem := ram [(coefAddr 0 1, 0x77), (coefAddr 0 3, 0x77)] })
      (fun t => (t.statusWord, t.mem, t.rng)) = some (0x32, [(coefAddr 0 3, 0x77)], [.byte 1]) := by decide +kernel

/-- N = 2, K = 2, one coefficient: SY(1, 0) = gmul(0x11, 2) = 0x22 (V21). -/
theorem test_kshare :
    after (exec .kshare { ready with paramN := 2, paramK := 2, mem := ram [(coefAddr 0 1, 0x11)] })
      (fun t => (t.sx 0, t.sy 0 0, t.sx 1, t.sy 1 0, t.sx 2)) = some (1, 0x11, 2, 0x22, 0) := by decide +kernel

/-- V13 through KCOMB: KEY[0] = 0x42 from the points at x = 2, 4, 5. -/
theorem test_kcomb : after (exec .kcomb (points [(2, 0x23), (4, 0x39), (5, 0x7B)])) (fun t => (t.key 0, t.key 1))
    = some (0x42, 0) := by decide +kernel
theorem test_kcomb_no_points : errOf .kcomb ready = some .invalidParameters := by decide

/-! ### ZERO, the bus and reset (V37 to V51) -/

theorem test_zero :
    after (exec .zero { v10 with a := 1, b := 2, r := 3, wbusy := true }) (fun t => (t.a, t.b, t.r, t.key 0, t.paramK, t.wbusy))
      = some (0, 0, 0, 0, 3, true) := by decide

/-- V47: a write to A is dropped while INV waits. -/
theorem test_dropped_write :
    after (step { ready.accept 3 with a := 0x53, events := [.write .w32 0x010 5] })
      (fun t => (t.a, t.busRead 0x010, t.busRead 0x008)) = some (0x53, 0, 5) := by decide

/-- V44: the pad byte. -/
theorem test_pad_byte : (ready.busWrite 0x60DC 0xAABBCCDD).busRead 0x60DC = 0x00BBCCDD := by decide +kernel

/-- V40, V41, V42. -/
theorem test_narrow_registers :
    (ready.busWrite 0x010 0x12345678).busRead 0x010 = 0x78 ∧ (ready.busWrite 0x00C 0xFFFFFFFF).busRead 0x00C = 0x00FFFFFF
      ∧ (ready.busWrite 0x01C 0xFFFFFFFF).busRead 0x01C = 1 := by decide

/-- V46: a 16-bit read, and a 32-bit read at 0x011. -/
theorem test_bus_error :
    step { ready with events := [.read .w16 0x010] } = .fault .busError ∧
      step { ready with events := [.read .w32 0x011] } = .fault .busError := ⟨rfl, rfl⟩

/-- V51: STATUS before and after the reset clear. -/
theorem test_reset_clear : State.reset.busRead 0x008 = 1 ∧ after (step State.reset) (·.busRead 0x008) = some 0 := by decide

/-- V32 through the step: an undefined opcode reports IllegalCommand. -/
theorem test_illegal_command : after (step (ready.withFetchWord 32 4)) (fun t => (t.statusWord, t.cmdlast)) = some (0x12, 4) := by
  decide

/-- A loaded command runs at the very next step, from reset too. -/
theorem test_withFetchWord :
    after (step (State.reset.withFetchWord 32 1)) (fun t => (t.busRead 0x008, t.cmdlast, t.events)) = some (2, 1, []) := by
  decide

/-! ### Witnesses: each meets the hypotheses of the statement in its name -/

theorem witness_RowsSelectCommands :
    (("BSHARE", 0x00000011, 0xFFFFE0FF) : String × Word × Word) ∈ opcodeRows ∧
      (0x00001F11 : Word) &&& 0xFFFFE0FF = 0x00000011 := by decide

theorem witness_DecodeInvertsEncode : (Instr.eval 31).wellFormed = true ∧ (Instr.basis 255).wellFormed = true := by decide

theorem witness_EncodeInvertsDecode : decode 0x00FF0012 = some (.basis 255) := by decide

theorem witness_IllegalCommandExactly :
    ¬ legalWord 0x00000031 ∧ legalWord 0x00001F10 ∧ ready.err = .ok ∧ ∃ t, executeWord 0x00001F10 ready = .next t := by
  refine ⟨by unfold legalWord; decide, by unfold legalWord; decide, rfl, _, rfl⟩

/-- A word of a row and one of none, an implicit turn of the core and an explicit one. -/
theorem witness_StepRunsLatchedCommand :
    let s : State := { ready.accept 4 with events := [.core, .read .w32 0x008] }
    (ready.accept 2).pend = .cmd 2 ∧ (ready.accept 2).rst = false ∧ decode 2 = some .mul ∧ coreMoves (ready.accept 2) [] ∧
      s.pend = .cmd 4 ∧ s.rst = false ∧ decode 4 = none ∧ coreMoves s [.read .w32 0x008] :=
  ⟨rfl, rfl, by decide, .inl ⟨rfl, rfl⟩, rfl, rfl, by decide, .inr rfl⟩

theorem witness_IdleCoreHoldsState :
    ready.pend = .none ∧ ready.events = [] ∧ ({ ready with events := [.core] }).events = .core :: [] := by decide

/-- Idle and busy. -/
theorem witness_AcceptanceLatchesAnyWord :
    ready.rst = false ∧ ready.busy = false ∧ (ready.accept 2).busy = true ∧
      ({ ready with events := [.write .w32 0x004 0xFFFFFFFF] }).events = .write .w32 0x004 0xFFFFFFFF :: [] := by decide

/-- A draw with enough answers, a fail among too few, and words that draw nothing: MUL, and KCREATE with K > N, with K = 3
and no answer. An explicit turn of the core, and an implicit one. -/
theorem witness_AnsweredCommandCompletes :
    let s : State := { v20.accept 0x20 with events := [.core, .read .w32 0x008] }
    let u : State := { ready.accept 0x22 with paramK := 3, paramN := 2 }
    s.pend = .cmd 0x20 ∧ s.rst = false ∧ coreMoves s [.read .w32 0x008] ∧ coreMoves (v20.accept 0x20) [] ∧
      drawsBytes s 0x20 ∧ s.answered (32 * (s.countK - 1)) ∧
      ({ v20 with rng := [.fail] } : State).answered (32 * (v20.countK - 1)) ∧
      ¬ drawsBytes u 0x22 ∧ ¬ drawsBytes u 0x02 ∧ coreMoves u [] ∧ u.rng = [] ∧ 32 * (u.countK - 1) = 64 :=
  ⟨rfl, rfl, .inr rfl, .inl ⟨rfl, rfl⟩, .inl rfl, .inl (by decide), .inr ⟨0, by decide, rfl⟩,
    by unfold drawsBytes; decide, by unfold drawsBytes; decide, .inl ⟨rfl, rfl⟩, rfl, by decide⟩

/-- RNGFILL and KCREATE, one answer short, and a fail that arrives. -/
theorem witness_UnansweredRequestStalls :
    let s : State := { v20.accept 0x20 with rng := (List.replicate 31 0xAA).map .byte, events := [.core] }
    s.rst = false ∧ s.rng = (List.replicate 31 0xAA).map .byte ∧ (List.replicate 31 0xAA).length < 32 * (s.countK - 1) ∧
      s.pend = .cmd 0x00000020 ∧ s.countK ≤ s.countN ∧ (∃ t, step s = .next t) ∧
      ({ s with events := [.answer .fail] } : State).events = .answer .fail :: [] :=
  ⟨rfl, rfl, by decide, rfl, by decide, ⟨_, rfl⟩, rfl⟩

theorem witness_OnlyBusErrorsStop :
    (Width.w8 ≠ .w32 ∨ (0x010 : BitVec 15).toNat % 4 ≠ 0) ∧ (Width.w32 ≠ .w32 ∨ (0x7FFF : BitVec 15).toNat % 4 ≠ 0) ∧
      ({ ready with events := [.read .w8 0x010] }).events = .read .w8 0x010 :: [] := by decide

theorem witness_NopOnlyCompletes :
    (0xFFFFFF00 : Word).extractLsb' 0 8 = 0 ∧ (0xFFFFFF00 : Word) ≠ 0 := by decide

/-- Equal operands; B = 0; the example. -/
theorem witness_AddWritesXor :
    ({ ready with a := 9, b := 9 } : State).a = ({ ready with a := 9, b := 9 } : State).b ∧ ready.b = 0x00 ∧
      ({ ready with a := 0x57, b := 0x83 } : State).a = 0x57 := by decide

/-- A zero operand; B = 1; the three examples differ in the values alone. -/
theorem witness_MulWritesFieldProduct :
    (ready.a = 0x00 ∨ ready.b = 0x00) ∧ ({ ready with b := 0x01 } : State).b = 0x01 ∧
      ({ ready with a := 0xFF, b := 0xFF } : State).a = 0xFF ∧ ({ ready with a := 0x80, b := 0x02 } : State).b = 0x02 ∧
      ({ ready with a := 0x57, b := 0x83 } : State).b = 0x83 := by decide

theorem witness_InvWritesFieldInverse :
    ready.a = 0x00 ∧ ({ ready with a := 0x01 } : State).a = 0x01 ∧ ({ ready with a := 0x02 } : State).a = 0x02 ∧
      ({ ready with a := 0xFF } : State).a = 0xFF ∧ ({ ready with a := 0x53 } : State).a = 0x53 := by decide

theorem witness_GmulFieldLaws : gmul 0x00 0xFF = 0x00 := by decide

theorem witness_GinvInverts : (0xFF : Byte) ≠ 0x00 := by decide

theorem witness_HornerEvaluatesSharePolynomial :
    1 ≤ ({ ready with paramK := 1 } : State).countK ∧ 1 ≤ ({ ready with paramK := 255 } : State).countK := by decide

/-- K = 0, 1 and 3, the last with the values of the example. -/
theorem witness_EvalWritesPolynomialValue :
    31 < 32 ∧ ready.countK = 0 ∧ ({ ready with paramK := 1 } : State).countK = 1 ∧ v10.countK = 3 ∧ v10.key 0 = 0x42 ∧
      v10.coef 0 1 = 0x17 ∧ v10.coef 0 2 = 0x55 ∧ ({ v10 with a := 0x02 } : State).a = 0x02 := by decide +kernel

/-- K > N, with the values of the example, and K = N = 255. -/
theorem witness_BshareWritesPoints :
    31 < 32 ∧ v10.mem.wf ∧ ¬ (1 ≤ v10.countK ∧ v10.countK ≤ v10.countN) ∧ v10.countK = 3 ∧ v10.key 0 = 0x42 ∧
      v10.coef 0 1 = 0x17 ∧ v10.coef 0 2 = 0x55 ∧
      1 ≤ ({ ready with paramN := 255, paramK := 255 } : State).countK ∧
      ({ ready with paramN := 255, paramK := 255 } : State).countK
        ≤ ({ ready with paramN := 255, paramK := 255 } : State).countN := by decide +kernel

theorem witness_BasisIsLagrangeQuotient :
    0 < (points [(2, 0), (4, 0), (5, 0)]).countM ∧
      [2, 1].Perm ((List.range (points [(2, 0), (4, 0), (5, 0)]).countM).filter fun j => j ≠ 0) := by decide +kernel

/-- i = M, i = M - 1 with M = 255, M = 1, and the example. -/
theorem witness_BasisWritesBasisValue :
    255 < 256 ∧ ({ ready with paramM := 255 } : State).countM ≤ 255 ∧ 254 < ({ ready with paramM := 255 } : State).countM ∧
      ({ ready with paramM := 1 } : State).countM = 1 ∧ (points [(2, 0), (4, 0), (5, 0)]).countM = 3 ∧
      (points [(2, 0), (4, 0), (5, 0)]).sx 0 = 2 ∧ (points [(2, 0), (4, 0), (5, 0)]).sx 1 = 4 ∧
      (points [(2, 0), (4, 0), (5, 0)]).sx 2 = 5 := by decide +kernel

/-- M = 0, M = 1 and M = 3. -/
theorem witness_BcombWritesCombinedByte :
    31 < 32 ∧ ready.mem.wf ∧ ready.countM = 0 ∧ (points [(3, 0x61)]).mem.wf ∧ (points [(3, 0x61)]).countM = 1 := by
  decide +kernel

/-- Two equal x-values, and a zero one. -/
theorem witness_DegeneratePointsGiveZeroBasis :
    0 < (points [(3, 0), (3, 0)]).countM ∧ 1 < (points [(3, 0), (3, 0)]).countM ∧ (0 : Nat) ≠ 1 ∧
      (points [(3, 0), (3, 0)]).sx 0 = (points [(3, 0), (3, 0)]).sx 1 ∧ (points [(3, 0), (0, 5)]).sx 1 = 0x00 := by
  decide +kernel

/-- V13: the points at x = 5, 1, 3 of the polynomial of V10. -/
theorem witness_CombineRecoversSecretByte :
    let t := points [(5, 0x7B), (1, 0x00), (3, 0x61)]
    1 ≤ v10.countK ∧ v10.countK ≤ t.countM ∧ (∀ i, i < t.countM → t.sx i ≠ 0x00 ∧ t.sy i 0 = v10.poly 0 (t.sx i)) ∧
      ∀ i, i < t.countM → ∀ j, j < t.countM → t.sx i = t.sx j → i = j := by decide +kernel

theorem witness_RngfillDrawsCoefficients :
    ready.mem.wf ∧ ready.countK = 0 ∧ v20.countK ≠ 0 ∧ v20.mem.wf ∧
      ((List.range 32).map fun t => BitVec.ofNat 8 (7 * t + 0x11)).length = 32 * (v20.countK - 1) ∧
      v20.rng = (((List.range 32).map fun t => BitVec.ofNat 8 (7 * t + 0x11)).map .byte) ++ [] := by decide +kernel

/-- A fail at the last request. -/
theorem witness_FailedDrawZeroisesRange :
    let s : State := { v20 with rng := (List.replicate 31 0xAA).map .byte ++ [.fail] }
    s.mem.wf ∧ (List.replicate 31 (0xAA : Byte)).length < 32 * (s.countK - 1) ∧
      s.rng = (List.replicate 31 0xAA).map .byte ++ .fail :: [] ∧ s.countK ≤ s.countN := by decide +kernel

theorem witness_KshareWritesRecords :
    ready.mem.wf ∧ ¬ (1 ≤ ready.countK ∧ ready.countK ≤ ready.countN) ∧ v20.mem.wf ∧ 1 ≤ v20.countK ∧
      v20.countK ≤ v20.countN ∧ ({ ready with paramN := 1, paramK := 1 } : State).countK = 1 := by decide +kernel

theorem witness_KcreateDrawsAndShares :
    v20.mem.wf ∧ (1 ≤ v20.countK ∧ v20.countK ≤ v20.countN) ∧ v20Answers.length = 32 * (v20.countK - 1) ∧
      v20.rng = (((List.range 32).map fun t => BitVec.ofNat 8 (7 * t + 0x11)).map .byte) ++ [] ∧
      ¬ (1 ≤ ready.countK ∧ ready.countK ≤ ready.countN) := by decide +kernel

theorem witness_KcombWritesKey :
    ready.mem.wf ∧ ready.countM = 0 ∧ (points [(3, 0x61)]).mem.wf ∧ (points [(3, 0x61)]).countM = 1 := by decide +kernel

/-- One coefficient, N = 3 and K = 2, for the witness of the round trip. -/
def trip : State :=
  { ready.accept 0x21 with
    paramN := 3, paramK := 2, mem := ram [(keyAddr 0, 0x42), (coefAddr 0 1, 0x13)] }

/-- Records 1 and 2 of `trip`'s shares placed whole in records 0 and 1, M = 2. -/
def tripBack : State :=
  let t := trip.createShares 3
  { ready with
    paramM := 2
    mem := forUp 66 (fun j m => m.write (shareByteAddr j) (t.mem.read (shareByteAddr (33 + j)))) [] }

theorem witness_KeyRoundTrip :
    trip.mem.wf ∧ tripBack.mem.wf ∧ trip.pend ≠ .none ∧
      (∃ t, exec .kshare trip = .next t ∧ t.pend = .none ∧ t.err = .ok ∧ t.mem = (trip.createShares 3).mem) ∧
      trip.countK ≤ tripBack.countM ∧ (∀ m, m < tripBack.countM → m + 1 < trip.countN) ∧
      ∀ m, m < tripBack.countM → ∀ j, j < 33 →
        tripBack.mem.read (shareByteAddr (33 * m + j))
          = (trip.createShares 3).mem.read (shareByteAddr (33 * (m + 1) + j)) := by
  refine ⟨by decide +kernel, by decide +kernel, by decide, ⟨(trip.createShares 3).complete .ok, ?_, rfl, rfl, rfl⟩,
    by decide, by decide, by decide +kernel⟩
  show execKshare trip = _
  rw [execKshare, if_pos (by decide)]
  rfl

/-- A fault of each kind of the table, and a command that has none. -/
theorem witness_ParameterChecksAsTabled :
    ready.err = .ok ∧ parameterFault ready (.eval 31) ∧ parameterFault { ready with paramN := 4, paramK := 6 } .kshare ∧
      parameterFault { ready with paramM := 255 } (.basis 255) ∧ ¬ parameterFault { ready with paramM := 255 } (.basis 254) ∧
      ∃ t, exec (.basis 254) { ready with paramM := 255 } = .next t := by
  refine ⟨rfl, rfl, .inr (.inr (by decide)), .inr (by decide), by unfold parameterFault; decide, ?_⟩
  show ∃ t, execBasis 254 _ = _
  rw [execBasis, if_pos (by decide)]
  exact ⟨_, rfl⟩

/-- Codes 1, 2 and 3. -/
theorem witness_FailedCommandKeepsState :
    ready.mem.wf ∧ ready.err = .ok ∧
      (∃ t, executeWord 0x00000004 ready = .next t ∧ t.err = .illegalCommand) ∧
      (∃ t, executeWord 0x00000010 ready = .next t ∧ t.err = .invalidParameters) ∧
      after (executeWord 0x00000020 { v20 with rng := [.fail] }) (·.err) = some .randomSourceExhausted :=
  ⟨by decide, rfl, ⟨_, rfl, rfl⟩, ⟨_, rfl, rfl⟩, by decide +kernel⟩

theorem witness_OnlyDrawsExhaustSource :
    ({ v20 with rng := [.fail] } : State).err = .ok ∧
      after (exec .rngfill { v20 with rng := [.fail] }) (·.err) = some .randomSourceExhausted := by decide +kernel

theorem witness_CommandsKeepOtherRegisters : ∃ t, exec (.bcomb 31) ready = .next t := ⟨_, rfl⟩

theorem witness_CommandsKeepOtherWindows :
    (Instr.bcomb 31).wellFormed = true ∧ (∃ t, exec (.bcomb 31) ready = .next t) ∧ Instr.bcomb 31 ≠ .zero ∧ inKey 0x11F ∧
      inCoef 0x2FBF ∧ inShareWindow 0x60DE :=
  ⟨by decide, ⟨_, rfl⟩, by decide, by unfold inKey; decide, by unfold inCoef; decide, by unfold inShareWindow; decide⟩

theorem witness_OperationCountsArePublic :
    1 ≤ v20.countK ∧ v20.countK ≤ v20.countN ∧ after (exec .kcreate v20) (·.err) = some .ok ∧
      254 < ({ ready with paramM := 255 } : State).countM ∧ Instr.mul ≠ .rngfill ∧ Instr.mul ≠ .inv := by
  decide +kernel

/-- The last word of each window, a reserved offset, and the last operand byte of each RAM. -/
theorem witness_IdleReadValues :
    31 < 32 ∧ 1 ≤ 254 ∧ 254 ≤ 254 ∧ 254 < 255 ∧ ready.busy = false ∧ (0x11C : BitVec 15).toNat ≤ 0x11C ∧ (0x2FBC : BitVec 15).toNat ≤ 0x2FBC ∧
      (0x60DC : BitVec 15).toNat ≤ 0x60DC ∧ (0x60DC : BitVec 15).toNat % 4 = 0 ∧ 0x60E0 ≤ (0x7FFC : BitVec 15).toNat := by
  decide

theorem witness_ReadsHaveNoSideEffect :
    ready.rst = false ∧ (0x7FFC : BitVec 15).toNat % 4 = 0 ∧
      ({ ready with events := [.read .w32 0x7FFC] }).events = .read .w32 0x7FFC :: [] := by decide

/-- A write to A that waits, idle and busy. -/
theorem witness_IdleRegisterWrites :
    ready.busy = false ∧ ready.rst = false ∧ (0x010 : BitVec 15).toNat % 4 = 0 ∧ (ready.accept 2).busy = true ∧
      ({ ready.accept 2 with events := [.write .w32 0x010 5] }).events = .write .w32 0x010 5 :: [] := by decide

theorem witness_IdleRamWrites :
    ready.busy = false ∧ ready.mem.wf ∧ (0x60DC : BitVec 15).toNat % 4 = 0 ∧
      (0x4000 ≤ (0x60DC : BitVec 15).toNat ∧ (0x60DC : BitVec 15).toNat ≤ 0x60DC) ∧
      0x60DC + 2 ≠ 0x60DF := by decide

/-- A hidden register, the last SHARE word, and a reserved offset. -/
theorem witness_BusyReadsHideSecrets :
    State.reset.busy = true ∧ (0x018 : BitVec 15).toNat % 4 = 0 ∧ (0x60DC : BitVec 15).toNat ≤ 0x60DC ∧
      0x60E0 ≤ (0x60E0 : BitVec 15).toNat := by decide

theorem witness_BusyWritesDropped :
    (ready.accept 3).busy = true ∧ (0x014 : BitVec 15).toNat % 4 = 0 ∧ 0x1000 ≤ (0x1000 : BitVec 15).toNat ∧
      (0x120 ≤ (0x120 : BitVec 15).toNat ∧ (0x120 : BitVec 15).toNat < 0x1000) := by decide

theorem witness_ReservedOffsetsInert :
    (0x024 : BitVec 15).toNat % 4 = 0 ∧ 0x024 ≤ (0x024 : BitVec 15).toNat ∧ (0x024 : BitVec 15).toNat < 0x100 := by decide

theorem witness_NarrowRegistersReadBack : ready.busy = false := by decide

theorem witness_WritesAreIdempotent :
    v10.mem.wf ∧ (0x100 : BitVec 15).toNat % 4 = 0 ∧ (0x100 : BitVec 15) ≠ 0x004 := by decide +kernel

theorem witness_OperandsFixedWhileBusy :
    let s : State := { ready.accept 3 with events := [.write .w32 0x010 5] }
    s.busy = true ∧ s.events = .write .w32 0x010 5 :: [] ∧ Event.write .w32 0x010 5 ≠ .core ∧ ∃ t, step s = .next t :=
  ⟨rfl, rfl, by decide, _, rfl⟩

/-- Two states that differ in A alone. -/
theorem witness_BusyHostLearnsNothing :
    let s : State := { ready.accept 3 with events := [.read .w32 0x010] }
    let s' : State := { s with a := 0x53 }
    s.busy = true ∧ s.rst = false ∧ s' = { s with a := s'.a, b := s'.b, r := s'.r, mem := s'.mem } ∧
      s.events = .read .w32 0x010 :: [] ∧ (∃ t, step s = .next t) ∧ ∃ t', step s' = .next t' :=
  ⟨rfl, rfl, rfl, rfl, ⟨_, rfl⟩, _, rfl⟩

/-- A completion with IE = 1, and IE set while DONE = 1. -/
theorem witness_IrqRises :
    let s : State := { ready.accept 0 with ie := true, events := [.core, .read .w32 0x008] }
    let s' : State := { ready with done := true, events := [.write .w32 0x01C 1] }
    s.pend = .cmd 0 ∧ s.rst = false ∧ coreMoves s [.read .w32 0x008] ∧ (∃ t, step s = .next t ∧ t.pend = .none) ∧
      s'.rst = false ∧ s'.done = true ∧ (1 : Word).getLsbD 0 = true ∧ ∃ t, step s' = .next t :=
  ⟨rfl, rfl, .inr rfl, ⟨_, rfl, rfl⟩, rfl, rfl, rfl, _, rfl⟩

/-- One state for each way irq falls. -/
theorem witness_IrqFalls :
    let s : State := { ready with done := true, ie := true }
    s.irq = true ∧ s.rst = false ∧ s.busy = false ∧ (2 : Word).getLsbD 1 = true ∧ (2 : Word).getLsbD 0 = false ∧
      (∃ t, step { s with events := [.write .w32 0x008 2] } = .next t) ∧
      (∃ t, step { s with events := [.write .w32 0x01C 2] } = .next t) ∧
      (∃ t, step { s with events := [.write .w32 0x004 2] } = .next t) ∧
      ∃ t, step { s with events := [.rstAssert] } = .next t :=
  ⟨rfl, rfl, rfl, rfl, rfl, ⟨_, rfl⟩, ⟨_, rfl⟩, ⟨_, rfl⟩, _, rfl⟩

theorem witness_ReleaseGivesResetValues :
    ({ v10 with rst := true, events := [.rstRelease] }).events = .rstRelease :: [] := by decide

theorem witness_ResetClearZeroesRams :
    let s : State := { State.reset with mem := v10.mem, events := [.core, .write .w32 0x010 5] }
    s.pend = .resetClear ∧ s.rst = false ∧ coreMoves s [.write .w32 0x010 5] ∧ coreMoves State.reset [] :=
  ⟨rfl, rfl, .inr rfl, .inl ⟨rfl, rfl⟩⟩

theorem witness_ResetAbandonsCommand :
    ({ v20.accept 0x22 with events := [.rstAssert, .rstRelease, .core] }).events
      = .rstAssert :: .rstRelease :: .core :: [] := by decide

theorem witness_HeldInResetIsInert :
    let s : State := { State.reset with rst := true }
    s.rst = true ∧ coreMoves s [] ∧ coreMoves { s with events := [.core] } [] ∧
      ({ s with events := [.answer .fail] }).events = .answer .fail :: [] ∧ (0x7FFC : BitVec 15).toNat % 4 = 0 :=
  ⟨rfl, .inl ⟨rfl, rfl⟩, .inr rfl, rfl, rfl⟩

/-- A state of the invariant with a command in execution, and its step. -/
theorem witness_StepKeepsInvariant : (v10.accept 0x00000530).Inv ∧ ∃ t, step (v10.accept 0x00000530) = .next t :=
  ⟨⟨by decide +kernel, by decide +kernel, fun _ => ⟨rfl, rfl⟩, fun w h => by cases h; rfl, fun h => by cases h⟩, _, rfl⟩

theorem witness_CanonicalMemoriesEqual : v10.mem.wf ∧ ram [(0x100, 0x42), (0x120, 0)] = [(0x100, 0x42)] := by
  decide +kernel

/-- The operations of basis(0) for M = 2, as R123 lists them: SX(1), SX(0) and SX(1), ginv, and the last product. -/
theorem test_basisC_ops :
    (({ ready with paramM := 2 } : State).basisC 0).2
      = [.load (sxAddr 1), .gmul, .load (sxAddr 0), .load (sxAddr 1), .gmul, .ginv] ++ List.replicate 14 .gmul := by
  decide

/-- Two states that differ in A, KEY and COEF; a draw whose answers differ but fail alike; K = N, M = 2 and M = 1. -/
theorem witness_TouchedLocationsArePublic :
    let s : State := { v20 with paramM := 2 }
    let t : State := { ready with paramN := 3, paramK := 2, paramM := 2, a := 1, rng := List.replicate 32 (.byte 0) }
    t.paramN = s.paramN ∧ t.paramK = s.paramK ∧ t.paramM = s.paramM ∧ answerFails t = answerFails s ∧ t.rng ≠ s.rng ∧
      t.mem ≠ s.mem ∧ 1 ≤ s.countK ∧ s.countK ≤ s.countN ∧ 1 < s.countM ∧
      1 ≤ ({ ready with paramM := 1 } : State).countM := by decide +kernel

end Sys2Proof.Tests
end

section
/-! PROOFS of the family of spec/10_state.md: what a step leaves of the state. First the facts about the decoder, the
memory and the bus; then what a command can do, said once (`CommandResult`), and what each move keeps of the invariant;
last the statements settled. -/

namespace Sys2Proof.Machine

open Sys2Proof.Reference

/-! ### The decoder gives well-formed commands only (R81, R82) -/

theorem fieldP_lt (w : Word) : fieldP w < 32 := (w.extractLsb' 8 5).isLt

theorem fieldI_lt (w : Word) : fieldI w < 256 := (w.extractLsb' 16 8).isLt

/-- One row of the decoder: its command is well-formed, and so is what the rows below it give. -/
theorem wellFormed_of_row {c : Bool} {x : Option Instr} {i j : Instr} (hj : j.wellFormed = true)
    (hx : x = some i → i.wellFormed = true) (h : (if c then some j else x) = some i) : i.wellFormed = true := by
  split at h
  · cases h
    exact hj
  · exact hx h

theorem decode_wellFormed {w : Word} {i : Instr} (h : decode w = some i) : i.wellFormed = true := by
  have hp : decide (fieldP w < 32) = true := decide_eq_true (fieldP_lt w)
  have hi : decide (fieldI w < 256) = true := decide_eq_true (fieldI_lt w)
  unfold decode at h
  refine wellFormed_of_row (j := .nop) rfl ?_ h
  refine wellFormed_of_row (j := .add) rfl <| wellFormed_of_row (j := .mul) rfl <| wellFormed_of_row (j := .inv) rfl ?_
  refine wellFormed_of_row (j := .eval _) hp <| wellFormed_of_row (j := .bshare _) hp ?_
  refine wellFormed_of_row (j := .basis _) hi <| wellFormed_of_row (j := .bcomb _) hp ?_
  refine wellFormed_of_row (j := .rngfill) rfl <| wellFormed_of_row (j := .kshare) rfl ?_
  refine wellFormed_of_row (j := .kcreate) rfl <| wellFormed_of_row (j := .kcomb) rfl ?_
  exact wellFormed_of_row (j := .zero) rfl nofun

/-! ### Canonical memories -/

theorem Memory.inRam_nil : ∀ c ∈ ([] : Memory), isRam c.1 = true := fun _ hc => absurd hc List.not_mem_nil

@[simp] theorem Memory.read_cons_same (k : Nat) (b : Byte) (m : Memory) : Memory.read ((k, b) :: m) k = b := by
  simp [Memory.read]

theorem Memory.read_cons_of_ne {k a : Nat} (b : Byte) (m : Memory) (h : k ≠ a) :
    Memory.read ((k, b) :: m) a = m.read a := by
  simp [Memory.read, h]

theorem Memory.read_cons_of_lt {k a : Nat} {b : Byte} {m : Memory} (h : Memory.wf ((k, b) :: m)) (ha : a < k) :
    Memory.read ((k, b) :: m) a = 0 := by
  obtain ⟨hlt, -, -⟩ := Memory.wf_cons.mp h
  refine Memory.read_of_lt fun c hc => ?_
  rcases List.mem_cons.mp hc with rfl | hc
  · exact ha
  · exact ha.trans (hlt c hc)

/-- The first listed offset does not read 0x00, so no memory that reads alike begins above it. -/
theorem Memory.head_le_of_read_eq {k k' : Nat} {b b' : Byte} {m m' : Memory} (h : Memory.wf ((k, b) :: m))
    (h' : Memory.wf ((k', b') :: m')) (hr : Memory.read ((k, b) :: m) k = Memory.read ((k', b') :: m') k) : k' ≤ k := by
  obtain ⟨-, hb, -⟩ := Memory.wf_cons.mp h
  by_contra hlt
  rw [Memory.read_cons_same, Memory.read_cons_of_lt h' (by omega)] at hr
  exact hb hr

theorem Memory.eq_of_read_eq {m m' : Memory} (h : m.wf) (h' : m'.wf) (hr : ∀ a, m.read a = m'.read a) : m = m' := by
  induction m generalizing m' with
  | nil =>
    cases m' with
    | nil => rfl
    | cons c m' =>
      obtain ⟨k, b⟩ := c
      obtain ⟨-, hb, -⟩ := Memory.wf_cons.mp h'
      exact absurd ((Memory.read_cons_same k b m').symm.trans (hr k).symm) hb
  | cons c m ih =>
    obtain ⟨k, b⟩ := c
    obtain ⟨hlt, hb, hm⟩ := Memory.wf_cons.mp h
    cases m' with
    | nil => exact absurd ((Memory.read_cons_same k b m).symm.trans (hr k)) hb
    | cons c' m' =>
      obtain ⟨k', b'⟩ := c'
      obtain ⟨hlt', -, hm'⟩ := Memory.wf_cons.mp h'
      obtain rfl : k = k' :=
        le_antisymm (Memory.head_le_of_read_eq h' h (hr k').symm) (Memory.head_le_of_read_eq h h' (hr k))
      obtain rfl : b = b' := by simpa using hr k
      have htail : ∀ a, Memory.read m a = Memory.read m' a := fun a => by
        by_cases ha : k = a
        · subst ha
          rw [Memory.read_of_lt hlt, Memory.read_of_lt hlt']
        · simpa only [Memory.read_cons_of_ne _ _ ha] using hr a
      rw [ih hm hm' htail]

/-! ### What the host reads -/

/-- A read is hidden only while busy and only at a hidden location (R59). -/
theorem State.busRead_eq_readIdle {s : State} {off : BitVec 15} (h : s.busy = false ∨ (locate off).hidden = false) :
    s.busRead off = s.readIdle (locate off) := by
  rw [State.busRead, if_neg]
  rcases h with h | h <;> simp [h]

theorem State.busRead_id (s : State) : s.busRead 0x000 = 0x53535301 :=
  State.busRead_eq_readIdle (.inr rfl)

/-- Lane l of the RAM word at window offset o, 0x00 past the end of the RAM (R52, R55). -/
theorem State.ramWord_lane (s : State) {start o size l : Nat} (ho : start ≤ o) (hl : l < 4) :
    (s.ramWord start (o - start) size).extractLsb' (8 * l) 8
      = if o + l < start + size then s.mem.read (o + l) else 0 := by
  rw [extractLsb'_ramWord s _ _ _ l hl, State.ramByte, show start + (o - start + l) = o + l by omega]
  exact if_congr (by omega) rfl rfl

/-- STATUS of an idle core: bit 0 is 0 (R26, R55). -/
theorem State.statusWord_idle {s : State} (h : s.busy = false) :
    s.statusWord
      = (s.err.code ++ 0#1 ++ BitVec.ofBool s.wbusy ++ BitVec.ofBool s.done ++ 0#1).setWidth 32 := by
  rw [State.statusWord, h]
  rfl

/-! ### STATUS after reset -/

theorem State.reset_statusWord : State.reset.statusWord = 0x00000001 := by decide

@[simp] theorem State.resetRegisters_statusWord (s : State) (level : Bool) :
    (s.resetRegisters level).statusWord = State.reset.statusWord := rfl

/-! ### What a command can do -/

/-- The commands that make random requests; they are the commands that store into COEF, ZERO apart. -/
def Draws (i : Instr) : Prop := i = .rngfill ∨ i = .kcreate

/-- The commands that write R, ZERO apart. -/
def WritesR (i : Instr) : Prop := i = .add ∨ i = .mul ∨ i = .inv ∨ (∃ p, i = .eval p) ∨ ∃ j, i = .basis j

/-- The commands that store into KEY, ZERO apart. -/
def StoresKey (i : Instr) : Prop := (∃ p, i = .bcomb p) ∨ i = .kcomb

/-- The commands that store into SHARE, ZERO apart. -/
def StoresShare (i : Instr) : Prop := (∃ p, i = .bshare p) ∨ i = .kshare ∨ i = .kcreate

/-- The offsets a command may store at, ZERO apart: the whole windows it stores into. -/
def StoreRange (i : Instr) (a : Nat) : Prop :=
  (StoresKey i ∧ inKey a) ∨ (Draws i ∧ inCoef a) ∨ (StoresShare i ∧ inShareWindow a)

/-- The ways a command answers: it waits for the random source; it completes and does nothing else; it writes R; it clears
the operands and the RAMs; it stores RAM bytes, and if it draws it uses answers. -/
inductive CommandResult (i : Instr) (s : State) : State → Prop
  | waits (h : Draws i) : CommandResult i s s
  | completes (e : ErrCode) : CommandResult i s (s.complete e)
  | writesR (h : WritesR i) (v : Byte) : CommandResult i s ({ s with r := v }.complete .ok)
  | clears (h : i = .zero) : CommandResult i s ({ s.clearRams with a := 0, b := 0, r := 0 }.complete .ok)
  | stores (m : Memory) (q : List RngAnswer) (e : ErrCode) (hq : q = s.rng ∨ Draws i)
      (hm : i.wellFormed = true → OnlyRam s { s with mem := m } (StoreRange i)) :
      CommandResult i s ({ s with mem := m, rng := q }.complete e)

/-- `OnlyRam` speaks of the memories alone. -/
theorem OnlyRam.withMem {s t : State} {A : Nat → Prop} (h : OnlyRam s t A) {s' : State} (hs : s'.mem = s.mem) :
    OnlyRam s' { s' with mem := t.mem } A where
  frame := rfl
  wf hwf := h.wf (hs ▸ hwf)
  inRam hin := h.inRam (hs ▸ hin)
  unchanged a ha := (h.unchanged a ha).trans (by rw [hs])

/-- A command that makes no request and whose stores change the memory alone. -/
theorem CommandResult.of_frame {i : Instr} {s u : State} (hu : u = { s with mem := u.mem }) (e : ErrCode)
    (hm : i.wellFormed = true → OnlyRam s u (StoreRange i)) : CommandResult i s (u.complete e) := by
  rw [hu]
  exact .stores u.mem s.rng e (.inl rfl) fun hw => (hm hw).withMem rfl

/-- BSHARE stores RAM bytes only, whatever p. -/
theorem createByteShares_frame (s : State) (p n : Nat) :
    s.createByteShares p n = { s with mem := (s.createByteShares p n).mem } := by
  refine forUp_induct (P := fun _ (t : State) => t = { s with mem := t.mem }) rfl fun i t _ ih => ?_
  show ((t.setSx i _).setSy i p _) = _
  rw [ih]
  rfl

theorem byteShareAddrs_inShare {p n : Nat} (hp : p < 32) (hn : n ≤ 255) (a : Nat) (h : byteShareAddrs p n a) :
    inShare a := by
  obtain ⟨i, hi, rfl | rfl⟩ := h
  · exact inShare_sxAddr (by omega)
  · exact inShare_syAddr (by omega) hp

theorem inKey_keyAddr {p : Nat} (hp : p < 32) : inKey (keyAddr p) := by
  simp only [inKey, keyAddr]; omega

theorem coefRange_inCoef {k : Nat} (hk : k ≤ 255) (a : Nat) (h : coefRange k a) : inCoef a := by
  obtain ⟨p, hp, c, h1, h2, rfl⟩ := h
  simp only [inCoef, coefAddr, coefByteAddr]; omega

theorem execEval_result {p : Nat} {s t : State} (h : execEval p s = .next t) : CommandResult (.eval p) s t := by
  unfold execEval at h
  split at h <;> cases h
  · exact .writesR (by simp [WritesR]) _
  · exact .completes _

theorem execBasis_result {j : Nat} {s t : State} (h : execBasis j s = .next t) : CommandResult (.basis j) s t := by
  unfold execBasis at h
  split at h <;> cases h
  · exact .writesR (by simp [WritesR]) _
  · exact .completes _

theorem execBshare_result {p : Nat} {s t : State} (h : execBshare p s = .next t) : CommandResult (.bshare p) s t := by
  unfold execBshare at h
  split at h <;> cases h
  · refine .of_frame (createByteShares_frame s p _) _ fun hw => ?_
    have hp : p < 32 := of_decide_eq_true hw
    exact (createByteShares_onlyRam s hp (countN_le s)).mono fun a ha =>
      .inr (.inr ⟨by simp [StoresShare], byteShareAddrs_inShare hp (countN_le s) a ha⟩)
  · exact .completes _

theorem execBcomb_result {p : Nat} {s t : State} (h : execBcomb p s = .next t) : CommandResult (.bcomb p) s t := by
  unfold execBcomb at h
  split at h <;> cases h
  · refine .of_frame rfl _ fun hw => ?_
    have hp : p < 32 := of_decide_eq_true hw
    exact onlyRam_writeMem s _ (.inl ⟨by simp [StoresKey], inKey_keyAddr hp⟩) (isRam_keyAddr hp)
  · exact .completes _

theorem execKcomb_result {s t : State} (h : execKcomb s = .next t) : CommandResult .kcomb s t := by
  unfold execKcomb at h
  split at h <;> cases h
  · refine .of_frame (combineKey_onlyRam s).frame _ fun _ => (combineKey_onlyRam s).mono ?_
    rintro a ⟨p, hp, rfl⟩
    exact .inl ⟨by simp [StoresKey], inKey_keyAddr hp⟩
  · exact .completes _

/-- The offsets of the records 0..N-1 lie in the range of a command that stores into SHARE. -/
theorem createShares_storeRange (s : State) {i : Instr} (hi : StoresShare i) {n : Nat} (hn : n ≤ 255) :
    OnlyRam s (s.createShares n) (StoreRange i) :=
  (createShares_onlyRam s hn).mono fun a ha => .inr (.inr ⟨hi, recordAddrs_inShare hn a ha⟩)

theorem execKshare_result {s t : State} (h : execKshare s = .next t) : CommandResult .kshare s t := by
  unfold execKshare at h
  split at h <;> cases h
  · have hO := createShares_storeRange s (i := .kshare) (by simp [StoresShare]) (countN_le s)
    exact .of_frame hO.frame _ fun _ => hO
  · exact .completes _

/-- What the draw of a drawing command can do: wait, or store into COEF and use answers. -/
theorem rngdraw_storeRange (s : State) {i : Instr} (hi : Draws i) :
    s.rngdraw = none ∨ ∃ e m q, s.rngdraw = some (e, { s with mem := m, rng := q }) ∧
      OnlyRam s { s with mem := m } (StoreRange i) := by
  rcases rngdraw_cases s with h | ⟨e, u, q, h, hO, -⟩
  · exact .inl h
  · refine .inr ⟨e, u.mem, q, ?_, (hO.withMem rfl).mono fun a ha =>
      .inr (.inl ⟨hi, coefRange_inCoef (countK_le s) a ha⟩)⟩
    rw [h, hO.frame]

theorem execRngfill_result {s t : State} (h : execRngfill s = .next t) : CommandResult .rngfill s t := by
  unfold execRngfill at h
  split at h
  · rcases rngdraw_storeRange s (i := .rngfill) (.inl rfl) with hd | ⟨e, m, q, hd, hO⟩ <;> rw [hd] at h <;> cases h
    · exact .waits (.inl rfl)
    · exact .stores m q e (.inr (.inl rfl)) fun _ => hO
  · cases h
    exact .completes _

theorem execKcreate_result {s t : State} (h : execKcreate s = .next t) : CommandResult .kcreate s t := by
  unfold execKcreate at h
  split at h
  · rcases rngdraw_storeRange s (i := .kcreate) (.inr rfl) with hd | ⟨e, m, q, hd, hO⟩ <;> rw [hd] at h <;>
      simp only at h
    · cases h
      exact .waits (.inr rfl)
    · split at h <;> cases h
      · have hS := createShares_storeRange { s with mem := m, rng := q } (i := .kcreate) (.inr (.inr rfl)) (countN_le s)
        rw [hS.frame]
        exact .stores _ q .ok (.inr (.inr rfl)) fun _ => hO.trans (hS.withMem (s' := { s with mem := m }) rfl)
      · exact .stores m q e (.inr (.inr rfl)) fun _ => hO
  · cases h
    exact .completes _

/-- What a command can do. -/
theorem exec_result {i : Instr} {s t : State} (h : exec i s = .next t) : CommandResult i s t := by
  cases i with
  | nop => cases h; exact .completes _
  | add => cases h; exact .writesR (.inl rfl) _
  | mul => cases h; exact .writesR (.inr (.inl rfl)) _
  | inv => cases h; exact .writesR (.inr (.inr (.inl rfl))) _
  | eval p => exact execEval_result h
  | bshare p => exact execBshare_result h
  | basis j => exact execBasis_result h
  | bcomb p => exact execBcomb_result h
  | rngfill => exact execRngfill_result h
  | kshare => exact execKshare_result h
  | kcreate => exact execKcreate_result h
  | kcomb => exact execKcomb_result h
  | zero => cases h; exact .clears rfl

namespace CommandResult

variable {i : Instr} {s t : State}

/-- The fields no command changes: PARAM, IE, CMDLAST, WBUSY and the inputs but the random source. -/
theorem frame (h : CommandResult i s t) :
    t = { s with
          a := t.a, b := t.b, r := t.r, done := t.done, err := t.err, pend := t.pend, mem := t.mem, rng := t.rng } := by
  cases h <;> rfl

theorem rng_eq (h : CommandResult i s t) (hi : ¬ Draws i) : t.rng = s.rng := by
  cases h with
  | waits | completes | writesR | clears => rfl
  | stores m q e hq => exact hq.resolve_right hi

theorem operands_eq (h : CommandResult i s t) (hi : i ≠ .zero) : t.a = s.a ∧ t.b = s.b := by
  cases h with
  | waits | completes | writesR | stores => exact ⟨rfl, rfl⟩
  | clears h => exact absurd h hi

theorem r_eq (h : CommandResult i s t) (hi : ¬ WritesR i) (hz : i ≠ .zero) : t.r = s.r := by
  cases h with
  | waits | completes | stores => rfl
  | writesR h => exact absurd h hi
  | clears h => exact absurd h hz

theorem mem_read_eq (h : CommandResult i s t) (hw : i.wellFormed = true) (hz : i ≠ .zero) {a : Nat}
    (ha : ¬ StoreRange i a) : t.mem.read a = s.mem.read a := by
  cases h with
  | waits | completes | writesR => rfl
  | clears h => exact absurd h hz
  | stores m q e hq hm => exact (hm hw).unchanged a ha

end CommandResult

/-! ### The windows a command does not store into are outside its range -/

theorem not_storeRange_of_inKey {i : Instr} {a : Nat} (hi : ¬ StoresKey i) (ha : inKey a) : ¬ StoreRange i a := by
  rintro (⟨h, -⟩ | ⟨-, h⟩ | ⟨-, h⟩)
  · exact hi h
  · simp only [inKey, inCoef] at ha h; omega
  · simp only [inKey, inShareWindow] at ha h; omega

theorem not_storeRange_of_inCoef {i : Instr} {a : Nat} (hi : ¬ Draws i) (ha : inCoef a) : ¬ StoreRange i a := by
  rintro (⟨-, h⟩ | ⟨h, -⟩ | ⟨-, h⟩)
  · simp only [inCoef, inKey] at ha h; omega
  · exact hi h
  · simp only [inCoef, inShareWindow] at ha h; omega

theorem not_storeRange_of_inShareWindow {i : Instr} {a : Nat} (hi : ¬ StoresShare i) (ha : inShareWindow a) :
    ¬ StoreRange i a := by
  rintro (⟨-, h⟩ | ⟨-, h⟩ | ⟨h, -⟩)
  · simp only [inShareWindow, inKey] at ha h; omega
  · simp only [inShareWindow, inCoef] at ha h; omega
  · exact hi h

/-! ### The step of a waiting event -/

theorem step_event {s : State} {e : Event} {rest : List Event} (h : s.events = e :: rest) :
    step s = moveAgent e { s with events := rest } := by
  rw [step, nextMove, h]

theorem step_noEvent {s : State} (h : s.events = []) : step s = coreTurn s := by
  rw [step, nextMove, h]

/-! ### What keeps the invariant -/

/-- The invariant speaks of six fields. -/
theorem State.Inv.of_fields {s t : State} (h : s.Inv) (hmem : t.mem = s.mem) (hdone : t.done = s.done)
    (herr : t.err = s.err) (hlast : t.cmdlast = s.cmdlast) (hpend : t.pend = s.pend) (hrst : t.rst = s.rst) : t.Inv where
  memWf := hmem ▸ h.memWf
  memInRam := hmem ▸ h.memInRam
  busyDone hb := by
    rw [hdone, herr]
    exact h.busyDone (by rwa [State.busy, ← hpend])
  lastWord w hw := hlast ▸ h.lastWord w (hpend ▸ hw)
  heldInReset hr := hpend ▸ h.heldInReset (hrst ▸ hr)

/-- Both edges of rst, and reset itself, give a state of the invariant from any state. -/
theorem State.resetRegisters_inv (s : State) (level : Bool) : (s.resetRegisters level).Inv where
  memWf := Memory.wf_nil
  memInRam := Memory.inRam_nil
  busyDone _ := ⟨rfl, rfl⟩
  lastWord _ hw := nomatch hw
  heldInReset _ := rfl

/-- An idle core that is not held in reset meets the invariant by its memory alone. -/
theorem State.inv_of_idle {s : State} (hp : s.pend = .none) (hr : s.rst = false) (hwf : s.mem.wf)
    (hin : ∀ c ∈ s.mem, isRam c.1 = true) : s.Inv where
  memWf := hwf
  memInRam := hin
  busyDone hb := by simp [State.busy, hp] at hb
  lastWord w hw := by simp [hp] at hw
  heldInReset h := by simp [hr] at h

theorem State.Inv.complete {s : State} (h : s.Inv) (hr : s.rst = false) (e : ErrCode) : (s.complete e).Inv :=
  State.inv_of_idle rfl hr h.memWf h.memInRam

theorem State.resetClear_inv {s : State} (hr : s.rst = false) : s.resetClear.Inv :=
  State.inv_of_idle rfl hr Memory.wf_nil Memory.inRam_nil

theorem State.Inv.accept {s : State} (h : s.Inv) (hr : s.rst = false) (w : Word) : (s.accept w).Inv where
  memWf := h.memWf
  memInRam := h.memInRam
  busyDone _ := ⟨rfl, rfl⟩
  lastWord _ hw := Pend.cmd.inj hw
  heldInReset hh := by simp [hr] at hh

theorem State.Inv.writeStatus {s : State} (h : s.Inv) (v : Word) : (s.writeStatus v).Inv where
  memWf := h.memWf
  memInRam := h.memInRam
  busyDone hb := by
    obtain ⟨hd, he⟩ := h.busyDone hb
    simp [hd, he]
  lastWord := h.lastWord
  heldInReset := h.heldInReset

/-- A RAM word write keeps the form of the memory and changes nothing else. -/
theorem State.Inv.putWord {s : State} (h : s.Inv) {start size : Nat} (hin : ∀ t < size, isRam (start + t) = true)
    (j : Nat) (v : Word) : (s.putWord start j size v).Inv := by
  obtain ⟨hframe, hwf, -, -⟩ := putWord_spec s start j size v h.memWf
  have hram := putWord_inRam s start j size v hin h.memInRam
  rw [hframe]
  exact ⟨hwf, hram, h.busyDone, h.lastWord, h.heldInReset⟩

/-! ### Every move keeps the invariant -/

theorem CommandResult.inv {i : Instr} {s t : State} (h : CommandResult i s t) (hs : s.Inv) (hr : s.rst = false)
    (hw : i.wellFormed = true) : t.Inv := by
  cases h with
  | waits => exact hs
  | completes e => exact hs.complete hr e
  | writesR _ v => exact State.inv_of_idle rfl hr hs.memWf hs.memInRam
  | clears => exact State.inv_of_idle rfl hr Memory.wf_nil Memory.inRam_nil
  | stores m q e _ hm => exact State.inv_of_idle rfl hr ((hm hw).wf hs.memWf) ((hm hw).inRam hs.memInRam)

theorem executeWord_inv {w : Word} {s t : State} (hs : s.Inv) (hr : s.rst = false) (h : executeWord w s = .next t) :
    t.Inv := by
  unfold executeWord at h
  split at h
  · cases h
    exact hs.complete hr _
  · exact (exec_result h).inv hs hr (decode_wellFormed ‹_›)

theorem coreTurn_inv {s t : State} (hs : s.Inv) (h : coreTurn s = .next t) : t.Inv := by
  unfold coreTurn at h
  split at h
  · cases h
    exact hs
  · have hr : s.rst = false := by simpa using ‹¬ s.rst = true›
    split at h
    · cases h
      exact hs
    · cases h
      exact State.resetClear_inv hr
    · exact executeWord_inv hs hr h

theorem State.Inv.writeIdle {s : State} (hs : s.Inv) (hr : s.rst = false) (v : Word) (l : Loc) :
    (s.writeIdle v l).Inv := by
  cases l with
  | id | r | cmdlast | reserved => exact hs
  | cmd => exact hs.accept hr v
  | status => exact hs.writeStatus v
  | param | a | b | irqen => exact hs.of_fields rfl rfl rfl rfl rfl rfl
  | key j => exact hs.putWord (fun t ht => isRam_iff.mpr (by omega)) j v
  | coef j => exact hs.putWord (fun t ht => isRam_iff.mpr (by omega)) j v
  | share j => exact hs.putWord (fun t ht => isRam_iff.mpr (by omega)) j v

theorem State.Inv.busWrite {s : State} (hs : s.Inv) (hr : s.rst = false) (off : BitVec 15) (v : Word) :
    (s.busWrite off v).Inv := by
  unfold State.busWrite
  split
  · exact hs.of_fields rfl rfl rfl rfl rfl rfl
  · exact hs.writeIdle hr v _

theorem hostRead_inv {width : Width} {off : BitVec 15} {s t : State} (hs : s.Inv) (h : hostRead width off s = .next t) :
    t.Inv := by
  unfold hostRead at h
  split_ifs at h <;> cases h <;> exact hs.of_fields rfl rfl rfl rfl rfl rfl

theorem hostWrite_inv {width : Width} {off : BitVec 15} {v : Word} {s t : State} (hs : s.Inv)
    (h : hostWrite width off v s = .next t) : t.Inv := by
  unfold hostWrite at h
  split_ifs at h with _ hr <;> cases h
  · exact hs
  · exact hs.busWrite (by simpa using hr) off v

theorem supplyAnswer_inv {s : State} (hs : s.Inv) (x : RngAnswer) : (supplyAnswer x s).Inv := by
  unfold supplyAnswer
  split
  · exact hs
  · exact hs.of_fields rfl rfl rfl rfl rfl rfl

theorem moveAgent_inv {e : Event} {s t : State} (hs : s.Inv) (h : moveAgent e s = .next t) : t.Inv := by
  cases e with
  | core => exact coreTurn_inv hs h
  | read width off => exact hostRead_inv hs h
  | write width off v => exact hostWrite_inv hs h
  | answer x => cases h; exact supplyAnswer_inv hs x
  | rstAssert => cases h; exact s.resetRegisters_inv true
  | rstRelease => cases h; exact s.resetRegisters_inv false

/-! ### The statements -/

/-- Settles O58: the core's turn by what a word or the reset clear can do, every other event by its agent's move. -/
theorem stepKeepsInvariant : Obligations.StepKeepsInvariant := by
  intro s t hs h
  cases he : s.events with
  | nil => exact coreTurn_inv hs (step_noEvent he ▸ h)
  | cons e rest =>
    rw [step_event he] at h
    exact moveAgent_inv (s := { s with events := rest }) (hs.of_fields rfl rfl rfl rfl rfl rfl) h

/-- Settles O37, from what a command can do. -/
theorem commandsKeepOtherRegisters : Obligations.CommandsKeepOtherRegisters := by
  intro i s t h
  have hc := exec_result h
  refine ⟨?_, ?_, ?_, ?_, ?_, ?_, ?_, ?_, ?_, ?_, fun h1 h2 => hc.rng_eq (by simp [Draws, h1, h2]), hc.operands_eq,
    fun h1 h2 h3 h4 h5 => hc.r_eq (by simp [WritesR, h1, h2, h3, h4, h5])⟩ <;> rw [hc.frame]

/-- Settles O38, from the windows a command stores into. -/
theorem commandsKeepOtherWindows : Obligations.CommandsKeepOtherWindows := by
  intro i s t hw h hz
  have hc := exec_result h
  refine ⟨fun h1 h2 a ha => hc.mem_read_eq hw hz (not_storeRange_of_inKey ?_ ha),
    fun h1 h2 a ha => hc.mem_read_eq hw hz (not_storeRange_of_inCoef ?_ ha),
    fun h1 h2 h3 a ha => hc.mem_read_eq hw hz (not_storeRange_of_inShareWindow ?_ ha)⟩
  · simp [StoresKey, h1, h2]
  · simp [Draws, h1, h2]
  · simp [StoresShare, h1, h2, h3]

/-- Settles O40: an idle read is the value of the location the offset names, for a RAM word lane by lane. -/
theorem idleReadValues : Obligations.IdleReadValues := by
  refine ⟨fun s p c i hp h1 h2 hi => ?_, fun s hs => ?_⟩
  · have hc : coefAddr p c = 0x1000 + p * 254 + c - 1 := by simp only [coefAddr, coefByteAddr]; omega
    have hx : sxAddr i = 0x4000 + 33 * i := rfl
    have hy : syAddr i p = 0x4000 + 33 * i + 1 + p := by simp only [syAddr, shareByteAddr]; omega
    exact ⟨rfl, rfl, hc, by rw [← hc]; rfl, hx, rfl, hy, by rw [← hy]; rfl⟩
  · have hread (off : BitVec 15) : s.busRead off = s.readIdle (locate off) := State.busRead_eq_readIdle (.inl hs)
    refine ⟨s.busRead_id, hread _, (hread _).trans (State.statusWord_idle hs), hread _, hread _, hread _, hread _,
      hread _, hread _, fun off l h4 hl => ⟨fun h1 h2 => ?_, fun h1 h2 => ?_, fun h1 h2 => ?_⟩, fun off h4 h => ?_⟩
    · rw [hread, locate_key ⟨h1, h2⟩]
      exact (s.ramWord_lane h1 hl).trans (if_pos (by omega))
    · rw [hread, locate_coef ⟨h1, h2⟩]
      exact (s.ramWord_lane h1 hl).trans (if_pos (by omega))
    · rw [hread, locate_share ⟨h1, h2⟩]
      exact (s.ramWord_lane h1 hl).trans (if_congr (by omega) rfl rfl)
    · rw [hread, locate_reserved h4 h]
      rfl

/-- Settles O59, by induction on one memory. -/
theorem canonicalMemoriesEqual : Obligations.CanonicalMemoriesEqual :=
  fun _ _ => Memory.eq_of_read_eq

/-- Settles O53: the release is `resetRegisters`, whose fields do not depend on the state before. -/
theorem releaseGivesResetValues : Obligations.ReleaseGivesResetValues := by
  refine ⟨State.reset_statusWord, fun s rest h => ?_⟩
  refine ⟨State.resetRegisters { s with events := rest } false, step_event h, rfl, ?_, State.busRead_id _, ?_⟩
  · exact (State.resetRegisters_statusWord _ false).trans State.reset_statusWord
  · exact ⟨rfl, rfl, rfl, rfl, rfl, rfl, rfl, rfl, rfl, rfl, rfl⟩

/-- Settles O57: reset is what an edge of rst gives. -/
theorem invariantAtReset : Obligations.InvariantAtReset :=
  State.reset.resetRegisters_inv false

end Sys2Proof.Machine
end

section
/-! PROOFS of the family of spec/20_memory.md: the host's accesses and the random source. First what an access does
while the core is busy and while it is idle, said once (`State.busWrite_busy`, `State.busWrite_idle`,
`State.ramWrite_spec`); then the step of an access and the turn of a draw that waits; last the statements settled. -/

namespace Sys2Proof.Machine

/-! ### The address map (R53) -/

/-- The offsets of the RAM words (R53, R55). -/
def RamWordOffset (off : BitVec 15) : Prop :=
  (0x100 ≤ off.toNat ∧ off.toNat ≤ 0x11C) ∨ (0x1000 ≤ off.toNat ∧ off.toNat ≤ 0x2FBC) ∨
    (0x4000 ≤ off.toNat ∧ off.toNat ≤ 0x60DC)

/-- While busy a RAM word is hidden from reads (R59) and its writes are dropped (R60). -/
theorem RamWordOffset.hidden_dropped {off : BitVec 15} (h : RamWordOffset off) :
    (locate off).hidden = true ∧ (locate off).dropped = true := by
  rcases h with h | h | h
  · rw [locate_key h]; exact ⟨rfl, rfl⟩
  · rw [locate_coef h]; exact ⟨rfl, rfl⟩
  · rw [locate_share h]; exact ⟨rfl, rfl⟩

/-- A RAM word lies in one of the three RAMs, but for the pad byte, which lies past the end of SHARE (R58). -/
theorem RamWordOffset.putWord {off : BitVec 15} (h : RamWordOffset off) :
    ∃ start size, start ≤ off.toNat ∧ (∀ l < 4, off.toNat + l < start + size ↔ off.toNat + l ≠ 0x60DF) ∧
      ∀ (s : State) (v : Word), s.writeIdle v (locate off) = s.putWord start (off.toNat - start) size v := by
  rcases h with h | h | h
  · rw [locate_key h]; exact ⟨0x100, 32, h.1, fun l hl => by omega, fun _ _ => rfl⟩
  · rw [locate_coef h]; exact ⟨0x1000, 8128, h.1, fun l hl => by omega, fun _ _ => rfl⟩
  · rw [locate_share h]; exact ⟨0x4000, 8415, h.1, fun l hl => by omega, fun _ _ => rfl⟩

/-- Only the offset 0x004 names CMD. -/
theorem locate_ne_cmd {off : BitVec 15} (h : off ≠ 0x004) : locate off ≠ .cmd := by
  have h4 : ¬ off.toNat = 0x004 := fun he => h (BitVec.eq_of_toNat_eq he)
  unfold locate
  refine iteInduction (motive := (· ≠ Loc.cmd)) (fun _ => nofun) fun _ => ?_
  rw [if_neg h4]
  repeat refine iteInduction (motive := (· ≠ Loc.cmd)) (fun _ => nofun) fun _ => ?_
  exact nofun

/-! ### Reads (R54, R59) -/

theorem State.busRead_reserved (s : State) {off : BitVec 15} (h : locate off = .reserved) : s.busRead off = 0 := by
  rw [State.busRead_eq_readIdle (.inr (by rw [h]; rfl)), h]
  rfl

theorem State.busRead_hidden {s : State} {off : BitVec 15} (hs : s.busy = true) (h : (locate off).hidden = true) :
    s.busRead off = 0 := by
  rw [State.busRead, hs, h]
  rfl

/-- STATUS of a busy core: bit 0 is 1 (R26, R55). -/
theorem State.statusWord_busy {s : State} (h : s.busy = true) :
    s.statusWord
      = (s.err.code ++ 0#1 ++ BitVec.ofBool s.wbusy ++ BitVec.ofBool s.done ++ 1#1).setWidth 32 := by
  rw [State.statusWord, h]
  rfl

/-- `s` with other values in what is hidden while busy: A, B, R and the RAMs. -/
def State.withHidden (s : State) (x y z : Byte) (m : Memory) : State := { s with a := x, b := y, r := z, mem := m }

/-- While busy no read depends on the hidden values. -/
theorem State.busRead_busy_congr {s : State} (hs : s.busy = true) (off : BitVec 15) (x y z : Byte) (m : Memory) :
    (s.withHidden x y z m).busRead off = s.busRead off := by
  cases h : (locate off).hidden with
  | true => exact (State.busRead_hidden (by exact hs) h).trans (State.busRead_hidden hs h).symm
  | false =>
    rw [State.busRead_eq_readIdle (.inr h), State.busRead_eq_readIdle (.inr h)]
    cases hl : locate off with
    | id | cmd | status | param | irqen | cmdlast | reserved => rfl
    | a | b | r | key j | coef j | share j => simp [hl, Loc.hidden] at h

/-! ### Writes (R56, R60) -/

theorem State.busWrite_idle {s : State} (hs : s.busy = false) (off : BitVec 15) (v : Word) :
    s.busWrite off v = s.writeIdle v (locate off) := by
  rw [State.busWrite, hs]
  rfl

/-- What a write to a location does while BUSY = 1: the table of R60. -/
def State.writeBusy (s : State) (v : Word) : Loc → State
  | .cmd | .param | .a | .b | .key _ | .coef _ | .share _ => s.dropWrite
  | .status => s.writeStatus v
  | .irqen => s.writeIrqen v
  | .id | .r | .cmdlast | .reserved => s

theorem State.busWrite_busy {s : State} (hs : s.busy = true) (off : BitVec 15) (v : Word) :
    s.busWrite off v = s.writeBusy v (locate off) := by
  rw [State.busWrite, hs]
  cases locate off <;> rfl

theorem State.writeBusy_dropped (s : State) (v : Word) {l : Loc} (h : l.dropped = true) :
    s.writeBusy v l = { s with wbusy := true } := by
  cases l with
  | cmd | param | a | b | key j | coef j | share j => rfl
  | id | status | r | irqen | cmdlast | reserved => exact nomatch h

/-- While busy a write changes DONE, WBUSY and IE at most. -/
theorem State.writeBusy_frame (s : State) (v : Word) (l : Loc) :
    s.writeBusy v l
      = { s with done := (s.writeBusy v l).done, wbusy := (s.writeBusy v l).wbusy, ie := (s.writeBusy v l).ie } := by
  cases l <;> rfl

/-- While busy what a write does does not depend on the hidden values, and keeps them. -/
theorem State.writeBusy_congr (s : State) (v : Word) (l : Loc) (x y z : Byte) (m : Memory) :
    (s.withHidden x y z m).writeBusy v l = (s.writeBusy v l).withHidden x y z m := by
  cases l <;> rfl

theorem State.writeStatus_eq (s : State) (v : Word) :
    s.writeStatus v
      = { s with
          done := if v.getLsbD 1 then false else s.done
          wbusy := if v.getLsbD 2 then false else s.wbusy } := by
  rw [State.writeStatus]
  cases v.getLsbD 1 <;> cases v.getLsbD 2 <;> simp

/-- A write that does nothing by either table does nothing. -/
theorem State.busWrite_eq_self {s : State} {off : BitVec 15} {v : Word} (hi : s.writeIdle v (locate off) = s)
    (hb : s.writeBusy v (locate off) = s) : s.busWrite off v = s := by
  cases hs : s.busy with
  | false => exact (State.busWrite_idle hs off v).trans hi
  | true => exact (State.busWrite_busy hs off v).trans hb

theorem State.busWrite_reserved (s : State) {off : BitVec 15} (v : Word) (h : locate off = .reserved) :
    s.busWrite off v = s :=
  State.busWrite_eq_self (by rw [h]; rfl) (by rw [h]; rfl)

/-- ID, R and CMDLAST ignore writes, idle or busy (R54). -/
theorem State.busWrite_readOnly (s : State) {off : BitVec 15} (v : Word)
    (h : off = 0x000 ∨ off = 0x018 ∨ off = 0x020) : s.busWrite off v = s := by
  rcases h with rfl | rfl | rfl <;> exact State.busWrite_eq_self rfl rfl

/-- An idle write to a RAM word: its lanes are stored, the pad byte excepted, and nothing else changes (R56, R58). -/
theorem State.ramWrite_spec {s : State} (hwf : s.mem.wf) {off : BitVec 15} (h : RamWordOffset off) (v : Word) :
    let t := s.writeIdle v (locate off)
    t = { s with mem := t.mem } ∧
      (∀ l < 4, off.toNat + l ≠ 0x60DF → t.mem.read (off.toNat + l) = laneByte v l) ∧
      ∀ a, a = 0x60DF ∨ a < off.toNat ∨ off.toNat + 4 ≤ a → t.mem.read a = s.mem.read a := by
  obtain ⟨start, size, hle, hpad, heq⟩ := h.putWord
  rw [heq]
  obtain ⟨hframe, -, hlane, hother⟩ := putWord_spec s start (off.toNat - start) size v hwf
  have hindex (l : Nat) : start + (off.toNat - start + l) = off.toNat + l := by omega
  refine ⟨hframe, fun l hl hp => ?_, fun a ha => hother a fun l hl hlt => ?_⟩
  · have hlt := (hpad l hl).mpr hp
    exact hindex l ▸ hlane l hl (by omega)
  · have hp := (hpad l hl).mp (by omega)
    omega

/-! ### Idempotence (R61) -/

/-- Storing a RAM word twice stores the same lanes again. -/
theorem State.putWord_putWord {s : State} (hwf : s.mem.wf) (start j size : Nat) (v : Word) :
    (s.putWord start j size v).putWord start j size v = s.putWord start j size v := by
  obtain ⟨-, hwf', hlane, -⟩ := putWord_spec s start j size v hwf
  set t := s.putWord start j size v
  obtain ⟨hframe, hwf'', hlane', hother⟩ := putWord_spec t start j size v hwf'
  have hread (x : Nat) : (t.putWord start j size v).mem.read x = t.mem.read x := by
    by_cases hx : ∃ l, l < 4 ∧ j + l < size ∧ x = start + (j + l)
    · obtain ⟨l, hl, hlt, rfl⟩ := hx
      rw [hlane' l hl hlt, hlane l hl hlt]
    · exact hother x fun l hl hlt he => hx ⟨l, hl, hlt, he⟩
  rw [hframe, Memory.eq_of_read_eq hwf'' hwf' hread]

theorem State.putWord_busy {s : State} (hwf : s.mem.wf) (start j size : Nat) (v : Word) :
    (s.putWord start j size v).busy = s.busy := by
  rw [(putWord_spec s start j size v hwf).1]
  rfl

/-- An idle write other than to CMD keeps BUSY and is idempotent. -/
theorem State.writeIdle_idempotent {s : State} (hwf : s.mem.wf) (v : Word) {l : Loc} (hl : l ≠ .cmd) :
    (s.writeIdle v l).busy = s.busy ∧ (s.writeIdle v l).writeIdle v l = s.writeIdle v l := by
  cases l with
  | cmd => exact absurd rfl hl
  | id | param | a | b | r | irqen | cmdlast | reserved => exact ⟨rfl, rfl⟩
  | status => exact ⟨rfl, by simp [State.writeIdle, State.writeStatus]⟩
  | key j => exact ⟨State.putWord_busy hwf 0x100 j 32 v, State.putWord_putWord hwf 0x100 j 32 v⟩
  | coef j => exact ⟨State.putWord_busy hwf 0x1000 j 8128 v, State.putWord_putWord hwf 0x1000 j 8128 v⟩
  | share j => exact ⟨State.putWord_busy hwf 0x4000 j 8415 v, State.putWord_putWord hwf 0x4000 j 8415 v⟩

/-- Every write while busy keeps BUSY and is idempotent. -/
theorem State.writeBusy_idempotent (s : State) (v : Word) (l : Loc) :
    (s.writeBusy v l).busy = s.busy ∧ (s.writeBusy v l).writeBusy v l = s.writeBusy v l := by
  refine ⟨by rw [s.writeBusy_frame v l]; rfl, ?_⟩
  cases l with
  | status => simp [State.writeBusy, State.writeStatus]
  | _ => rfl

/-! ### The fields of a written word (R57) -/

/-- A field at bit i is the word shifted right by i and cut to the field's width. -/
theorem extractLsb'_eq_setWidth_ushiftRight (v : Word) (i n : Nat) : v.extractLsb' i n = (v >>> i).setWidth n :=
  BitVec.eq_of_toNat_eq (by simp)

/-- The low n bits of a word, zero-extended, are the word masked to them. -/
theorem setWidth_extractLsb'_zero (v : Word) {n : Nat} (hn : n ≤ 32) :
    (v.extractLsb' 0 n).setWidth 32 = v &&& BitVec.ofNat 32 (2 ^ n - 1) := by
  have hp : 2 ^ n ≤ 2 ^ 32 := Nat.pow_le_pow_right (by decide) hn
  have hv : v.toNat % 2 ^ n < 2 ^ 32 := (Nat.mod_lt _ (Nat.two_pow_pos n)).trans_le hp
  have hm : 2 ^ n - 1 < 2 ^ 32 := (Nat.pred_lt (Nat.two_pow_pos n).ne').trans_le hp
  apply BitVec.eq_of_toNat_eq
  rw [BitVec.toNat_setWidth, BitVec.extractLsb'_toNat, Nat.shiftRight_zero, Nat.mod_eq_of_lt hv, BitVec.toNat_and,
    BitVec.toNat_ofNat, Nat.mod_eq_of_lt hm, Nat.and_two_pow_sub_one_eq_mod]

/-- The three bytes of PARAM are the low 24 bits of the word written. -/
theorem append_paramBytes (v : Word) :
    v.extractLsb' 16 8 ++ v.extractLsb' 8 8 ++ v.extractLsb' 0 8 = v.extractLsb' 0 24 := by
  rw [BitVec.extractLsb'_append_extractLsb'_eq_extractLsb' (show 16 = 8 + 8 from rfl),
    BitVec.extractLsb'_append_extractLsb'_eq_extractLsb' (show 8 = 0 + 8 from rfl)]

/-! ### The step of a host access (R51) -/

/-- An access that the device answers with a bus error: a wrong width or a wrong alignment (R51). -/
def Event.badAccess : Event → Prop
  | .read width off | .write width off _ => accessOk width off = false
  | .core | .answer _ | .rstAssert | .rstRelease => False

theorem accessOk_eq_true {width : Width} {off : BitVec 15} :
    accessOk width off = true ↔ width = .w32 ∧ off.toNat % 4 = 0 := by
  simp [accessOk]

theorem accessOk_eq_false {width : Width} {off : BitVec 15} :
    accessOk width off = false ↔ width ≠ .w32 ∨ off.toNat % 4 ≠ 0 := by
  rw [← Bool.not_eq_true, accessOk_eq_true, not_and_or]

/-- With rst released, a read that does not fault only records the word read. -/
theorem hostRead_next {width : Width} {off : BitVec 15} {s t : State} (hr : s.rst = false)
    (h : hostRead width off s = .next t) : t = { s with hostReads := s.hostReads ++ [s.busRead off] } := by
  rw [hostRead, if_neg (c := s.rst = true) (by simp [hr])] at h
  split at h <;> cases h
  rfl

/-- With rst released, a write that does not fault is BusWrite. -/
theorem hostWrite_next {width : Width} {off : BitVec 15} {v : Word} {s t : State} (hr : s.rst = false)
    (h : hostWrite width off v s = .next t) : t = s.busWrite off v := by
  rw [hostWrite, if_neg (c := s.rst = true) (by simp [hr])] at h
  split at h <;> cases h
  rfl

theorem step_read {s : State} {off : BitVec 15} {rest : List Event} (hr : s.rst = false) (h4 : off.toNat % 4 = 0)
    (he : s.events = .read .w32 off :: rest) :
    step s = .next { s with events := rest, hostReads := s.hostReads ++ [s.busRead off] } := by
  rw [step_event he, moveAgent, hostRead, if_pos (accessOk_eq_true.mpr ⟨rfl, h4⟩), hr]
  rfl

theorem step_write {s : State} {off : BitVec 15} {v : Word} {rest : List Event} (hr : s.rst = false)
    (h4 : off.toNat % 4 = 0) (he : s.events = .write .w32 off v :: rest) :
    step s = .next (({ s with events := rest } : State).busWrite off v) := by
  rw [step_event he, moveAgent, hostWrite, if_pos (accessOk_eq_true.mpr ⟨rfl, h4⟩), hr]
  rfl

/-! ### What can stop the machine (R51, R180, R186) -/

theorem next_of_ite {c : Prop} [Decidable c] {x y : Host.Outcome State Fault Refusal} (hx : ∃ t, x = .next t)
    (hy : ∃ t, y = .next t) : ∃ t, (if c then x else y) = .next t :=
  iteInduction (motive := fun o : Host.Outcome State Fault Refusal => ∃ t, o = .next t) (fun _ => hx) fun _ => hy

theorem execRngfill_next (s : State) : ∃ t, execRngfill s = .next t := by
  refine next_of_ite ?_ ⟨_, rfl⟩
  cases s.rngdraw with
  | none => exact ⟨_, rfl⟩
  | some d => exact ⟨_, rfl⟩

theorem execKcreate_next (s : State) : ∃ t, execKcreate s = .next t := by
  refine next_of_ite ?_ ⟨_, rfl⟩
  cases s.rngdraw with
  | none => exact ⟨_, rfl⟩
  | some d => exact next_of_ite ⟨_, rfl⟩ ⟨_, rfl⟩

/-- No command traps. -/
theorem exec_next (i : Instr) (s : State) : ∃ t, exec i s = .next t := by
  cases i with
  | nop | add | mul | inv | zero => exact ⟨_, rfl⟩
  | eval p | bshare p | basis j | bcomb p | kshare | kcomb => exact next_of_ite ⟨_, rfl⟩ ⟨_, rfl⟩
  | rngfill => exact execRngfill_next s
  | kcreate => exact execKcreate_next s

theorem executeWord_next (w : Word) (s : State) : ∃ t, executeWord w s = .next t := by
  rw [executeWord]
  split
  · exact ⟨_, rfl⟩
  · exact exec_next _ s

theorem coreTurn_next (s : State) : ∃ t, coreTurn s = .next t := by
  refine next_of_ite ⟨_, rfl⟩ ?_
  cases s.pend with
  | none | resetClear => exact ⟨_, rfl⟩
  | cmd w => exact executeWord_next w s

/-- What the device makes of an access: a bus error, or what it does with an accepted one. -/
theorem next_or_busError_of_ite (ok : Bool) {x : Host.Outcome State Fault Refusal} (hx : ∃ t, x = .next t) :
    (¬ ok = false ∧ ∃ t, (if ok then x else .fault .busError) = .next t) ∨
      (ok = false ∧ (if ok then x else .fault .busError) = .fault .busError) := by
  cases ok with
  | false => exact .inr ⟨rfl, rfl⟩
  | true => exact .inl ⟨nofun, hx⟩

/-- A move faults at a bad access and answers a next state otherwise. -/
theorem moveAgent_next_or_busError (e : Event) (s : State) :
    (¬ e.badAccess ∧ ∃ t, moveAgent e s = .next t) ∨ (e.badAccess ∧ moveAgent e s = .fault .busError) := by
  cases e with
  | core => exact .inl ⟨id, coreTurn_next s⟩
  | answer | rstAssert | rstRelease => exact .inl ⟨id, _, rfl⟩
  | read width off => exact next_or_busError_of_ite (accessOk width off) (next_of_ite ⟨_, rfl⟩ ⟨_, rfl⟩)
  | write width off v => exact next_or_busError_of_ite (accessOk width off) (next_of_ite ⟨_, rfl⟩ ⟨_, rfl⟩)

/-- A step faults exactly where a bad access comes first, and answers a next state otherwise. -/
theorem step_next_or_busError (s : State) :
    ((∀ e rest, s.events = e :: rest → ¬ e.badAccess) ∧ ∃ t, step s = .next t) ∨
      ((∃ e rest, s.events = e :: rest ∧ e.badAccess) ∧ step s = .fault .busError) := by
  cases he : s.events with
  | nil =>
    rw [step_noEvent he]
    exact .inl ⟨nofun, coreTurn_next s⟩
  | cons e rest =>
    rw [step_event he]
    rcases moveAgent_next_or_busError e { s with events := rest } with ⟨hb, ht⟩ | ⟨hb, hf⟩
    · refine .inl ⟨fun e' rest' h => ?_, ht⟩
      cases h
      exact hb
    · exact .inr ⟨⟨e, rest, rfl, hb⟩, hf⟩

theorem badAccess_first_iff {s : State} :
    (∃ e rest, s.events = e :: rest ∧ e.badAccess) ↔
      ∃ (width : Width) (off : BitVec 15) (rest : List Event), (width ≠ .w32 ∨ off.toNat % 4 ≠ 0) ∧
        (s.events = .read width off :: rest ∨ ∃ v, s.events = .write width off v :: rest) := by
  constructor
  · rintro ⟨e, rest, he, hb⟩
    cases e with
    | core | answer | rstAssert | rstRelease => exact hb.elim
    | read width off => exact ⟨width, off, rest, accessOk_eq_false.mp hb, .inl he⟩
    | write width off v => exact ⟨width, off, rest, accessOk_eq_false.mp hb, .inr ⟨v, he⟩⟩
  · rintro ⟨width, off, rest, hb, he | ⟨v, he⟩⟩
    · exact ⟨.read width off, rest, he, accessOk_eq_false.mpr hb⟩
    · exact ⟨.write width off v, rest, he, accessOk_eq_false.mpr hb⟩

/-! ### A draw that waits (R65) -/

/-- An answer joins the answers to come (R64). -/
theorem supplyAnswer_released {s : State} (x : RngAnswer) (hr : s.rst = false) :
    supplyAnswer x s = { s with rng := s.rng ++ [x] } :=
  if_neg (by simp [hr])

/-- RNGFILL, or KCREATE past its check, is latched, and the source has not answered every request of its draw. -/
structure State.DrawWaits (s : State) : Prop where
  latched : s.pend = .cmd 0x00000020 ∨ (s.pend = .cmd 0x00000022 ∧ s.countK ≤ s.countN)
  threshold : 1 ≤ s.countK
  unanswered : s.rngdraw = none

theorem State.DrawWaits.busy {s : State} (h : s.DrawWaits) : s.busy = true := by
  rcases h.latched with hp | ⟨hp, -⟩ <;> simp [State.busy, hp]

theorem execRngfill_waits {s : State} (hk : 1 ≤ s.countK) (hd : s.rngdraw = none) : execRngfill s = .next s := by
  rw [execRngfill, hd, if_pos (show s.thresholdOk = true from decide_eq_true (by omega))]

theorem execKcreate_waits {s : State} (hk : 1 ≤ s.countK) (hn : s.countK ≤ s.countN) (hd : s.rngdraw = none) :
    execKcreate s = .next s := by
  rw [execKcreate, hd, if_pos (show s.createOk = true from decide_eq_true ⟨hk, hn⟩)]

/-- The turn of a core whose draw waits changes nothing. -/
theorem State.DrawWaits.coreTurn_eq {s : State} (h : s.DrawWaits) (hr : s.rst = false) : coreTurn s = .next s := by
  rcases h.latched with hp | ⟨hp, hn⟩
  · rw [coreTurn, hr, hp]
    exact execRngfill_waits h.threshold h.unanswered
  · rw [coreTurn, hr, hp]
    exact execKcreate_waits h.threshold hn h.unanswered

/-- Two busy cores that differ in the hidden values alone go to states that differ there alone, under every move but the
core's. -/
theorem moveAgent_withHidden {e : Event} {s t t' : State} {x y z : Byte} {m : Memory} (hs : s.busy = true)
    (hr : s.rst = false) (hcore : e ≠ .core) (h : moveAgent e s = .next t)
    (h' : moveAgent e (s.withHidden x y z m) = .next t') : ∃ x' y' z' m', t' = t.withHidden x' y' z' m' := by
  have hs' : (s.withHidden x y z m).busy = true := hs
  have hr' : (s.withHidden x y z m).rst = false := hr
  cases e with
  | core => exact absurd rfl hcore
  | read width off =>
    rw [hostRead_next hr h, hostRead_next hr' h', State.busRead_busy_congr hs]
    exact ⟨x, y, z, m, rfl⟩
  | write width off v =>
    rw [hostWrite_next hr h, hostWrite_next hr' h', State.busWrite_busy hs, State.busWrite_busy hs',
      State.writeBusy_congr]
    exact ⟨x, y, z, m, rfl⟩
  | answer a =>
    rw [moveAgent, supplyAnswer_released a hr] at h
    rw [moveAgent, supplyAnswer_released a hr'] at h'
    cases h
    cases h'
    exact ⟨x, y, z, m, rfl⟩
  | rstAssert | rstRelease =>
    cases h
    cases h'
    exact ⟨_, _, _, _, rfl⟩

/-! ### The statements -/

/-- Settles O10: a draw with too few answers waits, so the core's turn changes nothing, and a host access of a busy core
changes neither the command nor the RAMs nor the answers. -/
theorem unansweredRequestStalls : Obligations.UnansweredRequestStalls := by
  refine ⟨fun s x rest hr he => ?_, fun s bs hr hrng hlen hp => ?_⟩
  · rw [step_event he, moveAgent, supplyAnswer_released x (by exact hr)]
  · have hwaits : s.DrawWaits := ⟨hp, by omega, rngdraw_none s bs hlen hrng⟩
    refine ⟨fun he => by rw [step_noEvent he, hwaits.coreTurn_eq hr], fun e rest he hans has hrel t ht => ?_⟩
    have hwaits' : State.DrawWaits { s with events := rest } := ⟨hp, hwaits.threshold, rngdraw_none _ bs hlen hrng⟩
    rw [step_event he] at ht
    cases e with
    | core =>
      rw [moveAgent, hwaits'.coreTurn_eq hr] at ht
      cases ht
      exact ⟨rfl, hwaits.busy, rfl, rfl, fun _ => rfl⟩
    | read width off =>
      rw [hostRead_next (s := { s with events := rest }) hr ht]
      exact ⟨rfl, hwaits.busy, rfl, rfl, nofun⟩
    | write width off v =>
      rw [hostWrite_next (s := { s with events := rest }) hr ht, State.busWrite_busy hwaits'.busy,
        State.writeBusy_frame]
      exact ⟨rfl, hwaits.busy, rfl, rfl, nofun⟩
    | answer a => exact absurd rfl (hans a)
    | rstAssert => exact absurd rfl has
    | rstRelease => exact absurd rfl hrel

/-- Settles O11: every move but a bad access answers a next state. -/
theorem onlyBusErrorsStop : Obligations.OnlyBusErrorsStop := by
  refine fun s => ⟨fun i => exec_next i s, fun w => executeWord_next w s, ?_⟩
  rw [← badAccess_first_iff]
  rcases step_next_or_busError s with ⟨hok, t, ht⟩ | ⟨hbad, hf⟩
  · rw [ht]
    refine ⟨nofun, nofun, ?_⟩
    rintro ⟨e, rest, he, hb⟩
    exact absurd hb (hok e rest he)
  · rw [hf]
    exact ⟨nofun, fun _ => hbad, fun _ => rfl⟩

/-- Settles O43, from what a RAM word write stores. -/
theorem idleRamWrites : Obligations.IdleRamWrites := by
  intro s v off hs hwf _ h
  rw [State.busWrite_idle hs]
  exact State.ramWrite_spec hwf h v

/-- Settles O44: hidden locations read 0, the others as when idle. -/
theorem busyReadsHideSecrets : Obligations.BusyReadsHideSecrets := by
  intro s off hs h4
  refine ⟨?_, ?_, ?_, ?_, ?_, ?_, ?_, fun h => ?_⟩
  · rintro (rfl | rfl | rfl | h)
    · exact State.busRead_hidden hs rfl
    · exact State.busRead_hidden hs rfl
    · exact State.busRead_hidden hs rfl
    · exact State.busRead_hidden hs (RamWordOffset.hidden_dropped h).1
  · rintro rfl
    exact s.busRead_id
  · rintro rfl
    exact State.busRead_eq_readIdle (.inr rfl)
  · rintro rfl
    exact (State.busRead_eq_readIdle (.inr rfl)).trans (State.statusWord_busy hs)
  · rintro rfl
    exact State.busRead_eq_readIdle (.inr rfl)
  · rintro rfl
    exact State.busRead_eq_readIdle (.inr rfl)
  · rintro rfl
    exact State.busRead_eq_readIdle (.inr rfl)
  · exact s.busRead_reserved (locate_reserved h4 h)

/-- Settles O45: a write while busy is the table of R60 at the location its offset names. -/
theorem busyWritesDropped : Obligations.BusyWritesDropped := by
  intro s off v hs h4
  refine ⟨fun h => ?_, ?_, ?_, fun h => ?_⟩
  · have hd : (locate off).dropped = true := by
      rcases h with rfl | rfl | rfl | rfl | h
      · rfl
      · rfl
      · rfl
      · rfl
      · exact (RamWordOffset.hidden_dropped h).2
    rw [State.busWrite_busy hs, State.writeBusy_dropped s v hd]
  · rintro rfl
    exact (State.busWrite_busy hs _ v).trans (s.writeStatus_eq v)
  · rintro rfl
    exact State.busWrite_busy hs _ v
  · rcases h with h | h | h | h
    · exact s.busWrite_readOnly v (.inl h)
    · exact s.busWrite_readOnly v (.inr (.inl h))
    · exact s.busWrite_readOnly v (.inr (.inr h))
    · exact s.busWrite_reserved v (locate_reserved h4 h)

/-- Settles O48: the second write meets the same BUSY and the same location, where it does nothing new. -/
theorem writesAreIdempotent : Obligations.WritesAreIdempotent := by
  intro s off v hwf _ hcmd
  cases hs : s.busy with
  | false =>
    obtain ⟨hb, hi⟩ := State.writeIdle_idempotent hwf v (locate_ne_cmd hcmd)
    rw [State.busWrite_idle hs, State.busWrite_idle (hb.trans hs), hi]
  | true =>
    obtain ⟨hb, hi⟩ := s.writeBusy_idempotent v (locate off)
    rw [State.busWrite_busy hs, State.busWrite_busy (hb.trans hs), hi]

/-- Settles O50: while busy neither the word read nor the effect of a write depends on A, B, R or the RAMs. -/
theorem busyHostLearnsNothing : Obligations.BusyHostLearnsNothing := by
  intro s s' t t' e rest hs hr hs' he hcore ht ht'
  have he' : s'.events = e :: rest := by rw [hs', he]
  have hrest : ({ s' with events := rest } : State)
      = State.withHidden { s with events := rest } s'.a s'.b s'.r s'.mem := by
    rw [hs']
    rfl
  rw [step_event he] at ht
  rw [step_event he', hrest] at ht'
  obtain ⟨x, y, z, m, rfl⟩ := moveAgent_withHidden (s := { s with events := rest }) hs hr hcore ht ht'
  exact ⟨rfl, rfl⟩

/-- Settles O41: the step of an aligned read. -/
theorem readsHaveNoSideEffect : Obligations.ReadsHaveNoSideEffect :=
  fun _ _ _ => step_read

/-- Settles O42: an idle write is the table of R56 at the location its offset names. -/
theorem idleRegisterWrites : Obligations.IdleRegisterWrites := by
  refine ⟨fun _ _ _ _ => step_write, fun s v hs => ?_⟩
  have hwrite (off : BitVec 15) : s.busWrite off v = s.writeIdle v (locate off) := State.busWrite_idle hs off v
  have hlow : v.extractLsb' 0 8 = v.setWidth 8 := (BitVec.setWidth_eq_extractLsb' (by decide)).symm
  refine ⟨hwrite _, (hwrite _).trans (s.writeStatus_eq v), ?_, ?_, ?_, hwrite _, hwrite _, hwrite _, hwrite _⟩
  · rw [← hlow, ← extractLsb'_eq_setWidth_ushiftRight, ← extractLsb'_eq_setWidth_ushiftRight]
    exact hwrite _
  · rw [← hlow]
    exact hwrite _
  · rw [← hlow]
    exact hwrite _

/-- Settles O46: a reserved offset is not hidden and reads 0, and it ignores writes as ID, R and CMDLAST do. -/
theorem reservedOffsetsInert : Obligations.ReservedOffsetsInert := by
  refine fun s off v h4 => ⟨fun h => ?_, s.busWrite_readOnly v⟩
  have hl := locate_reserved h4 h
  exact ⟨s.busRead_reserved hl, s.busWrite_reserved v hl⟩

/-- Settles O47: the register holds the field written, which reads back as the word masked to it. -/
theorem narrowRegistersReadBack : Obligations.NarrowRegistersReadBack := by
  intro s v hs
  have hread (off : BitVec 15) (w : Word) (hb : (s.writeIdle w (locate off)).busy = false) :
      (s.busWrite off w).busRead off = (s.writeIdle w (locate off)).readIdle (locate off) := by
    rw [State.busWrite_idle hs, State.busRead_eq_readIdle (.inl hb)]
  have hbyte (w : Word) : (w.extractLsb' 0 8).setWidth 32 = w &&& 0x000000FF :=
    setWidth_extractLsb'_zero w (n := 8) (by decide)
  have ha (w : Word) : (s.busWrite 0x010 w).a = w.extractLsb' 0 8 := by
    rw [State.busWrite_idle hs]
    rfl
  have haread (w : Word) : (s.busWrite 0x010 w).busRead 0x010 = w &&& 0x000000FF := (hread 0x010 w hs).trans (hbyte w)
  refine ⟨(hread 0x00C v hs).trans ?_, haread v, (hread 0x014 v hs).trans (hbyte v),
    (hread 0x01C v hs).trans BitVec.and_one_eq_setWidth_ofBool_getLsbD.symm, (ha _).trans (by decide),
    (haread _).trans (by decide)⟩
  exact (congrArg (BitVec.setWidth 32) (append_paramBytes v)).trans (setWidth_extractLsb'_zero v (n := 24) (by decide))

end Sys2Proof.Machine
end

section
/-! PROOFS of the family of spec/30_encoding.md: the decoder and the encoder against the opcode table of R84. First what
a word's operand fields hold; then the decoder as a search of the table's rows, of which a word matches at most one,
said once (`decode_eq_some_iff`); last the statements settled. -/

namespace Sys2Proof.Machine

open Sys2Proof.Reference Sys2Proof.Laws

/-! ### Operand fields (R81, R82) -/

/-- A field put back at its place is the word masked to that place. -/
theorem setWidth_extractLsb'_shiftLeft (w : Word) (start n : Nat) :
    (w.extractLsb' start n).setWidth 32 <<< start = w &&& ((BitVec.allOnes n).setWidth 32 <<< start) := by
  ext j hj
  by_cases hs : j < start
  · simp [hs]
  · simp [hs, hj, Nat.add_sub_cancel' (Nat.le_of_not_lt hs), Bool.and_comm]

theorem ofNat_fieldP_shiftLeft (w : Word) : BitVec.ofNat 32 (fieldP w) <<< 8 = w &&& 0x00001F00 := by
  rw [fieldP, BitVec.ofNat_toNat]
  exact setWidth_extractLsb'_shiftLeft w 8 5

theorem ofNat_fieldI_shiftLeft (w : Word) : BitVec.ofNat 32 (fieldI w) <<< 16 = w &&& 0x00FF0000 := by
  rw [fieldI, BitVec.ofNat_toNat]
  exact setWidth_extractLsb'_shiftLeft w 16 8

/-- A number that fits a field is read back from a word whose other part leaves the field clear. -/
theorem toNat_extractLsb'_or_shiftLeft {m : Word} {start n p : Nat} (hm : m.extractLsb' start n = 0#n) (hp : p < 2 ^ n)
    (hn : start + n ≤ 32) : ((m ||| BitVec.ofNat 32 p <<< start).extractLsb' start n).toNat = p := by
  have hfield : (BitVec.ofNat 32 p <<< start).extractLsb' start n = BitVec.ofNat n p := by
    ext j hj
    simp [← BitVec.getLsbD_eq_getElem, BitVec.getLsbD_ofNat, hj, show start + j < 32 by omega, show j < 32 by omega]
  rw [BitVec.extractLsb'_or, hm, hfield, BitVec.zero_or, BitVec.toNat_ofNat, Nat.mod_eq_of_lt hp]

theorem fieldP_or_shiftLeft {m : Word} {p : Nat} (hm : m.extractLsb' 8 5 = 0) (hp : p < 32) :
    fieldP (m ||| BitVec.ofNat 32 p <<< 8) = p :=
  toNat_extractLsb'_or_shiftLeft hm hp (by decide)

theorem fieldI_or_shiftLeft {m : Word} {j : Nat} (hm : m.extractLsb' 16 8 = 0) (hj : j < 256) :
    fieldI (m ||| BitVec.ofNat 32 j <<< 16) = j :=
  toNat_extractLsb'_or_shiftLeft hm hj (by decide)

/-! ### The rows of the opcode table (R84) -/

/-- The command of each row of R84 in the table's order, with the values of fields P and I given. -/
def rowCommands (p j : Nat) : List Instr :=
  [.nop, .add, .mul, .inv, .eval p, .bshare p, .basis j, .bcomb p, .rngfill, .kshare, .kcreate, .kcomb, .zero]

/-- The row of R84 a command belongs to. -/
def rowOf (i : Instr) : String × Word × Word := (i.mnemonic, i.matchWord, i.maskWord)

theorem map_rowOf_rowCommands (p j : Nat) : (rowCommands p j).map rowOf = opcodeRows := rfl

theorem mem_opcodeRows_iff (p j : Nat) {row : String × Word × Word} :
    row ∈ opcodeRows ↔ ∃ i ∈ rowCommands p j, rowOf i = row := by
  rw [← map_rowOf_rowCommands p j, List.mem_map]

theorem rowOf_mem_opcodeRows {p j : Nat} {i : Instr} (h : i ∈ rowCommands p j) : rowOf i ∈ opcodeRows :=
  (mem_opcodeRows_iff p j).mpr ⟨i, h, rfl⟩

theorem rowCommands_inj {p j : Nat} {i i' : Instr} (h : i ∈ rowCommands p j) (h' : i' ∈ rowCommands p j)
    (hrow : rowOf i = rowOf i') : i = i' :=
  List.inj_on_of_nodup_map (f := rowOf) (by rw [map_rowOf_rowCommands]; decide) h h' hrow

/-- No two rows have the same mnemonic. -/
theorem opcodeRows_mnemonic_inj {row row' : String × Word × Word} (h : row ∈ opcodeRows) (h' : row' ∈ opcodeRows)
    (hname : row.1 = row'.1) : row = row' :=
  List.inj_on_of_nodup_map (f := Prod.fst) (by decide) h h' hname

/-- Every mask holds the whole opcode field (R81). -/
theorem opcodeRows_mask_opcode : ∀ row ∈ opcodeRows, row.2.2 &&& 0x000000FF = 0x000000FF := by decide

/-- At most one row matches a word: the word's low byte is the match's, and no two rows have the same there. -/
theorem opcodeRows_match_unique {row row' : String × Word × Word} {w : Word} (h : row ∈ opcodeRows)
    (h' : row' ∈ opcodeRows) (hw : w &&& row.2.2 = row.2.1) (hw' : w &&& row'.2.2 = row'.2.1) : row = row' := by
  have hlow {r : String × Word × Word} (hr : r ∈ opcodeRows) (hm : w &&& r.2.2 = r.2.1) :
      r.2.1 &&& 0x000000FF = w &&& 0x000000FF := by
    rw [← hm, BitVec.and_assoc, opcodeRows_mask_opcode r hr]
  exact List.inj_on_of_nodup_map (f := fun r => r.2.1 &&& 0x000000FF) (by decide) h h'
    ((hlow h hw).trans (hlow h' hw').symm)

/-! ### The decoder as a search of the rows -/

theorem selects_iff {w mtch mask : Word} : selects w mtch mask = true ↔ w &&& mask = mtch := beq_iff_eq

theorem find?_cons_eq_ite {α : Type} (f : α → Bool) (x : α) (l : List α) :
    (x :: l).find? f = if f x then some x else l.find? f := by
  rw [List.find?_cons]
  cases f x <;> rfl

theorem decode_eq_find? (w : Word) :
    decode w = (rowCommands (fieldP w) (fieldI w)).find? fun i => selects w i.matchWord i.maskWord := by
  simp only [rowCommands, find?_cons_eq_ite]
  rfl

/-- A word decodes to a command exactly when the command is one of the rows' with the word's own field values, and the
word matches its row. -/
theorem decode_eq_some_iff {w : Word} {i : Instr} :
    decode w = some i ↔ i ∈ rowCommands (fieldP w) (fieldI w) ∧ w &&& i.maskWord = i.matchWord := by
  have found {i : Instr} (h : decode w = some i) :
      i ∈ rowCommands (fieldP w) (fieldI w) ∧ w &&& i.maskWord = i.matchWord := by
    rw [decode_eq_find?] at h
    exact ⟨List.mem_of_find?_eq_some h, selects_iff.mp (List.find?_some h :)⟩
  refine ⟨found, fun ⟨hmem, hw⟩ => ?_⟩
  have hsome : (decode w).isSome = true := by
    rw [decode_eq_find?, List.find?_isSome]
    exact ⟨i, hmem, selects_iff.mpr hw⟩
  obtain ⟨i', hi'⟩ := Option.isSome_iff_exists.mp hsome
  obtain ⟨hmem', hw'⟩ := found hi'
  have hrow : rowOf i' = rowOf i :=
    opcodeRows_match_unique (rowOf_mem_opcodeRows hmem') (rowOf_mem_opcodeRows hmem) hw' hw
  rw [hi', rowCommands_inj hmem' hmem hrow]

/-! ### The encoder -/

/-- The operand bits of a row's command with a word's own field values are the word's bits outside the row's mask. -/
theorem operandBits_of_mem_rowCommands (w : Word) :
    ∀ i ∈ rowCommands (fieldP w) (fieldI w), i.operandBits = w &&& ~~~i.maskWord := by
  have hfixed : (0 : Word) = w &&& ~~~(0xFFFFFFFF : Word) := BitVec.and_zero.symm
  have hp : BitVec.ofNat 32 (fieldP w) <<< 8 = w &&& ~~~(0xFFFFE0FF : Word) := ofNat_fieldP_shiftLeft w
  have hi : BitVec.ofNat 32 (fieldI w) <<< 16 = w &&& ~~~(0xFF00FFFF : Word) := ofNat_fieldI_shiftLeft w
  simp only [rowCommands, List.forall_mem_cons]
  exact ⟨hfixed, hfixed, hfixed, hfixed, hp, hp, hi, hp, hfixed, hfixed, hfixed, hfixed, hfixed, nofun⟩

/-- A well-formed command is its row's with the field values its own word holds. -/
theorem mem_rowCommands_encode {i : Instr} (h : i.wellFormed = true) :
    i ∈ rowCommands (fieldP (encode i)) (fieldI (encode i)) := by
  cases i with
  | eval p =>
    have hfield : fieldP (encode (.eval p)) = p :=
      fieldP_or_shiftLeft (m := 0x00000010) (by decide) (of_decide_eq_true h)
    simp [rowCommands, hfield]
  | bshare p =>
    have hfield : fieldP (encode (.bshare p)) = p :=
      fieldP_or_shiftLeft (m := 0x00000011) (by decide) (of_decide_eq_true h)
    simp [rowCommands, hfield]
  | bcomb p =>
    have hfield : fieldP (encode (.bcomb p)) = p :=
      fieldP_or_shiftLeft (m := 0x00000013) (by decide) (of_decide_eq_true h)
    simp [rowCommands, hfield]
  | basis j =>
    have hfield : fieldI (encode (.basis j)) = j :=
      fieldI_or_shiftLeft (m := 0x00000012) (by decide) (of_decide_eq_true h)
    simp [rowCommands, hfield]
  | nop | add | mul | inv | rngfill | kshare | kcreate | kcomb | zero => simp [rowCommands]

theorem encode_matches {i : Instr} (h : i.wellFormed = true) : encode i &&& i.maskWord = i.matchWord :=
  match i with
  | .nop => RowShape.nop h
  | .add => RowShape.add h
  | .mul => RowShape.mul h
  | .inv => RowShape.inv h
  | .eval p => RowShape.eval p h
  | .bshare p => RowShape.bshare p h
  | .basis j => RowShape.basis j h
  | .bcomb p => RowShape.bcomb p h
  | .rngfill => RowShape.rngfill h
  | .kshare => RowShape.kshare h
  | .kcreate => RowShape.kcreate h
  | .kcomb => RowShape.kcomb h
  | .zero => RowShape.zero h

/-! ### The statements settled -/

/-- Settles O3: the word of a command matches the command's row and holds its field values. -/
theorem decodeInvertsEncode : Obligations.DecodeInvertsEncode :=
  fun _ h => decode_eq_some_iff.mpr ⟨mem_rowCommands_encode h, encode_matches h⟩

/-- Settles O2: a row's command decodes exactly from the words that match the row, and the rows' opcodes differ. -/
theorem rowsSelectCommands : Obligations.RowsSelectCommands := by
  refine ⟨fun row hrow w => ?_, fun row h row' h' w => opcodeRows_match_unique h h'⟩
  constructor
  · rintro ⟨i, hi, hname⟩
    obtain ⟨hmem, hw⟩ := decode_eq_some_iff.mp hi
    obtain rfl : rowOf i = row := opcodeRows_mnemonic_inj (rowOf_mem_opcodeRows hmem) hrow hname
    exact hw
  · intro hw
    obtain ⟨i, hmem, rfl⟩ := (mem_opcodeRows_iff (fieldP w) (fieldI w)).mp hrow
    exact ⟨i, decode_eq_some_iff.mpr ⟨hmem, hw⟩, rfl⟩

/-- Settles O4: the match is the word under the mask, and the operand bits are the rest of the word. -/
theorem encodeInvertsDecode : Obligations.EncodeInvertsDecode := by
  intro w i h
  refine ⟨decode_wellFormed h, ?_⟩
  obtain ⟨hmem, hw⟩ := decode_eq_some_iff.mp h
  calc encode i
    _ = w &&& i.maskWord ||| w &&& ~~~i.maskWord := by rw [encode, hw, operandBits_of_mem_rowCommands w i hmem]
    _ = w := by rw [← BitVec.and_or_distrib_left, BitVec.or_not_self, BitVec.and_allOnes]

/-- Settles O1: the four words are the encodings of well-formed commands, so O3 decodes them. -/
theorem notationWordsDecode : Obligations.NotationWordsDecode :=
  ⟨rfl, decodeInvertsEncode (.eval 5) rfl, rfl, decodeInvertsEncode (.bshare 31) rfl, rfl,
    decodeInvertsEncode (.bcomb 0) rfl, rfl, decodeInvertsEncode (.basis 2) rfl, rfl⟩

end Sys2Proof.Machine
end

section
/-! PROOFS of the family of spec/40_field_arithmetic.md. First a byte as a polynomial over GF(2), and its class modulo the
reduction polynomial (`fieldValue`), which determines the byte; then what the loops of R103 and R106 compute on classes,
from which the laws of `gmul` and `ginv` follow by ring arithmetic; last the statements settled. -/

namespace Sys2Proof.Machine

open Sys2Proof.Reference Polynomial AdjoinRoot

/-! ### A byte as a polynomial (R100) -/

/-- The polynomial over GF(2) that a byte stands for. -/
noncomputable def bytePoly (v : Byte) : (ZMod 2)[X] := ∑ i ∈ Finset.range 8, if v.getLsbD i then X ^ i else 0

/-- The reduction polynomial. -/
noncomputable def reductionPoly : (ZMod 2)[X] := X ^ 8 + X ^ 4 + X ^ 3 + X + 1

theorem bytePoly_xor (a b : Byte) : bytePoly (a ^^^ b) = bytePoly a + bytePoly b := by
  rw [bytePoly, bytePoly, bytePoly, ← Finset.sum_add_distrib]
  refine Finset.sum_congr rfl fun i _ => ?_
  rw [BitVec.getLsbD_xor]
  cases a.getLsbD i <;> cases b.getLsbD i <;> simp [CharTwo.add_self_eq_zero]

theorem coeff_bytePoly (v : Byte) {i : Nat} (hi : i < 8) : (bytePoly v).coeff i = if v.getLsbD i then 1 else 0 := by
  rw [bytePoly, finsetSum_coeff, Finset.sum_eq_single_of_mem i (Finset.mem_range.mpr hi)]
  · rw [apply_ite (coeff · i), coeff_X_pow_self, coeff_zero]
  · intro j _ hj
    rw [apply_ite (coeff · i), coeff_X_pow, if_neg hj.symm, coeff_zero, ite_self]

theorem degree_bytePoly_lt (v : Byte) : (bytePoly v).degree < 8 := by
  refine (degree_sum_le _ _).trans_lt ((Finset.sup_lt_iff (by decide)).mpr fun i hi => ?_)
  split
  · rw [degree_X_pow]
    exact_mod_cast Finset.mem_range.mp hi
  · exact bot_lt_iff_ne_bot.mpr nofun

theorem degree_reductionPoly : reductionPoly.degree = 8 := by
  unfold reductionPoly
  compute_degree!

/-- No byte but 0x00 stands for a multiple of the reduction polynomial. -/
theorem eq_zero_of_reductionPoly_dvd {v : Byte} (h : reductionPoly ∣ bytePoly v) : v = 0 := by
  have hzero : bytePoly v = 0 :=
    eq_zero_of_dvd_of_degree_lt h ((degree_bytePoly_lt v).trans_eq degree_reductionPoly.symm)
  refine BitVec.eq_of_getLsbD_eq fun i hi => ?_
  simpa [hzero] using (coeff_bytePoly v hi).symm

/-! ### A byte as an element of GF(256) -/

/-- The class of a byte's polynomial modulo the reduction polynomial. -/
noncomputable def fieldValue (v : Byte) : AdjoinRoot reductionPoly := mk reductionPoly (bytePoly v)

/-- The class of the polynomial of the low `t` bits. -/
noncomputable def lowBitsValue (t : Nat) (v : Byte) : AdjoinRoot reductionPoly :=
  ∑ i ∈ Finset.range t, if v.getLsbD i then root reductionPoly ^ i else 0

theorem fieldValue_eq_lowBitsValue (v : Byte) : fieldValue v = lowBitsValue 8 v := by
  simp only [fieldValue, bytePoly, lowBitsValue, map_sum, apply_ite (mk reductionPoly), map_pow, mk_X, map_zero]

theorem fieldValue_xor (a b : Byte) : fieldValue (a ^^^ b) = fieldValue a + fieldValue b := by
  rw [fieldValue, bytePoly_xor, map_add]
  rfl

theorem fieldValue_injective : Function.Injective fieldValue := fun a b h => by
  have hdvd : reductionPoly ∣ bytePoly (a ^^^ b) := by
    rw [bytePoly_xor, ← CharTwo.sub_eq_add]
    exact AdjoinRoot.mk_eq_mk.mp h
  exact BitVec.xor_eq_zero_iff.mp (eq_zero_of_reductionPoly_dvd hdvd)

theorem fieldValue_zero : fieldValue 0x00 = 0 := by
  simp [fieldValue_eq_lowBitsValue, lowBitsValue]

theorem fieldValue_one : fieldValue 0x01 = 1 := by
  simp [fieldValue_eq_lowBitsValue, lowBitsValue]

theorem fieldValue_two : fieldValue 0x02 = root reductionPoly := by
  simp [fieldValue_eq_lowBitsValue, lowBitsValue, Finset.sum_range_succ]

/-- x^8 is the low byte of the reduction polynomial. -/
theorem root_pow_eight : root reductionPoly ^ 8 = fieldValue 0x1B := by
  have hlow : bytePoly 0x1B = 1 + X + X ^ 3 + X ^ 4 := by simp [bytePoly, Finset.sum_range_succ]
  have hpoly : X ^ 8 - bytePoly 0x1B = reductionPoly := by
    rw [hlow, CharTwo.sub_eq_add, reductionPoly]
    ring
  calc root reductionPoly ^ 8
    _ = mk reductionPoly (X ^ 8) := by rw [map_pow, mk_X]
    _ = fieldValue 0x1B := mk_eq_mk.mpr (dvd_of_eq hpoly.symm)

theorem lowBitsValue_shiftLeft (a : Byte) : lowBitsValue 8 (a <<< 1) = lowBitsValue 7 a * root reductionPoly := by
  rw [lowBitsValue, Finset.sum_range_succ', lowBitsValue, Finset.sum_mul, BitVec.getLsbD_shiftLeft]
  refine (add_zero _).trans (Finset.sum_congr rfl fun i hi => ?_)
  have hbit : (a <<< 1).getLsbD (i + 1) = a.getLsbD i := by
    have hlt : i + 1 < 8 := Nat.succ_lt_succ (Finset.mem_range.mp hi)
    rw [BitVec.getLsbD_shiftLeft, decide_eq_true hlt, decide_eq_false (Nat.not_lt_of_ge (Nat.le_add_left 1 i)),
      Nat.add_sub_cancel]
    rfl
  rw [hbit, ite_mul, zero_mul, pow_succ]

theorem lowBitsValue_succ (t : Nat) (b : Byte) :
    lowBitsValue (t + 1) b = root reductionPoly * lowBitsValue t (b >>> 1) + if b.getLsbD 0 then 1 else 0 := by
  rw [lowBitsValue, Finset.sum_range_succ', lowBitsValue, Finset.mul_sum, pow_zero]
  refine congrArg (· + _) (Finset.sum_congr rfl fun i _ => ?_)
  rw [BitVec.getLsbD_ushiftRight, Nat.add_comm 1 i, mul_ite, mul_zero, pow_succ']

/-! ### The product loop (R103) -/

theorem and_bitMask (v : Byte) (c : Bool) : v &&& bitMask c = if c then v else 0x00 := by
  cases c
  · exact BitVec.and_zero
  · exact BitVec.and_allOnes

theorem fieldValue_ite (c : Bool) (v : Byte) : fieldValue (if c then v else 0x00) = if c then fieldValue v else 0 := by
  rw [apply_ite fieldValue, fieldValue_zero]

theorem xtime_eq (a : Byte) : xtime a = (a <<< 1) ^^^ (if a.getLsbD 7 then 0x1B else 0x00) := by
  rw [xtime, and_bitMask]

/-- One shift with its reduction is multiplication by x. -/
theorem fieldValue_xtime (a : Byte) : fieldValue (xtime a) = fieldValue a * root reductionPoly := by
  have hlast : lowBitsValue 8 a = lowBitsValue 7 a + if a.getLsbD 7 then root reductionPoly ^ 7 else 0 :=
    Finset.sum_range_succ _ 7
  rw [xtime_eq, fieldValue_xor, fieldValue_ite, ← root_pow_eight, fieldValue_eq_lowBitsValue, lowBitsValue_shiftLeft,
    fieldValue_eq_lowBitsValue, hlast, add_mul, ite_mul, zero_mul, ← pow_succ]

/-- `t` iterations add to p the product of aa and the low `t` bits of bb. -/
theorem fieldValue_gmulLoop (t : Nat) (p aa bb : Byte) :
    fieldValue (gmulLoop t p aa bb) = fieldValue p + fieldValue aa * lowBitsValue t bb := by
  induction t generalizing p aa bb with
  | zero => simp [gmulLoop, lowBitsValue]
  | succ t ih =>
    rw [gmulLoop, ih, fieldValue_xor, and_bitMask, fieldValue_ite, fieldValue_xtime, lowBitsValue_succ, mul_add, mul_ite,
      mul_one, mul_zero]
    ring

theorem fieldValue_gmul (a b : Byte) : fieldValue (gmul a b) = fieldValue a * fieldValue b := by
  rw [gmul, fieldValue_gmulLoop, ← fieldValue_eq_lowBitsValue, fieldValue_zero, zero_add]

/-! ### The ring laws of gmul (R104) -/

theorem gmul_comm (a b : Byte) : gmul a b = gmul b a :=
  fieldValue_injective (by rw [fieldValue_gmul, fieldValue_gmul, mul_comm])

theorem gmul_assoc (a b c : Byte) : gmul (gmul a b) c = gmul a (gmul b c) :=
  fieldValue_injective (by simp only [fieldValue_gmul, mul_assoc])

theorem gmul_xor (a b c : Byte) : gmul a (b ^^^ c) = gmul a b ^^^ gmul a c :=
  fieldValue_injective (by simp only [fieldValue_gmul, fieldValue_xor, mul_add])

theorem gmul_one (a : Byte) : gmul a 0x01 = a :=
  fieldValue_injective (by rw [fieldValue_gmul, fieldValue_one, mul_one])

theorem gmul_zero (a : Byte) : gmul a 0x00 = 0x00 :=
  fieldValue_injective (by rw [fieldValue_gmul, fieldValue_zero, mul_zero])

theorem gmul_two (a : Byte) : gmul a 0x02 = xtime a :=
  fieldValue_injective (by rw [fieldValue_gmul, fieldValue_two, fieldValue_xtime])

/-! ### Powers and the inverse chain (R106) -/

theorem fieldValue_gpow (a : Byte) (n : Nat) : fieldValue (gpow a n) = fieldValue a ^ n := by
  induction n with
  | zero => exact fieldValue_one
  | succ n ih => rw [gpow, fieldValue_gmul, ih, pow_succ]

/-- Six square-then-multiply steps give the exponents 3, 7, 15, 31, 63, 127, and the last square 254. -/
theorem ginv_eq_gpow (a : Byte) : ginv a = gpow a 254 :=
  fieldValue_injective (by
    rw [fieldValue_gpow]
    simp only [ginv, ginvStep, forUp_succ, forUp_zero, fieldValue_gmul]
    ring)

/-- x^256 = x: the chain of R106 on 0x02 gives x^254, which x^2 takes to x again. -/
theorem root_pow_256 : root reductionPoly ^ 2 ^ 8 = root reductionPoly := by
  have hbyte : gmul (ginv 0x02) (gmul 0x02 0x02) = 0x02 := by decide +kernel
  have hclass := congrArg fieldValue hbyte
  simp only [fieldValue_gmul, ginv_eq_gpow, fieldValue_gpow, fieldValue_two] at hclass
  calc root reductionPoly ^ 2 ^ 8
    _ = root reductionPoly ^ 254 * (root reductionPoly * root reductionPoly) := by ring
    _ = root reductionPoly := hclass

/-- The 256th power is additive in characteristic 2 and fixes x, so it fixes every element. -/
theorem fieldValue_pow_256 (a : Byte) : fieldValue a ^ 2 ^ 8 = fieldValue a := by
  calc fieldValue a ^ 2 ^ 8
    _ = mk reductionPoly (bytePoly a ^ 2 ^ 8) := (map_pow ..).symm
    _ = lowBitsValue 8 a := by
      rw [bytePoly, sum_pow_char_pow, map_sum, lowBitsValue]
      refine Finset.sum_congr rfl fun i _ => ?_
      rw [ite_pow, zero_pow (by decide), pow_right_comm, apply_ite (mk reductionPoly), map_zero, map_pow, map_pow, mk_X,
        root_pow_256]
    _ = fieldValue a := (fieldValue_eq_lowBitsValue a).symm

/-- The only idempotents are 0x00 and 0x01: the reduction polynomial does not split into coprime factors. -/
theorem eq_zero_or_one_of_gmul_self : ∀ e : Byte, gmul e e = e → e = 0x00 ∨ e = 0x01 := by decide +kernel

/-- a^255 is idempotent, and it is not 0x00 because a^256 = a. -/
theorem gpow_255 {a : Byte} (ha : a ≠ 0x00) : gpow a 255 = 0x01 := by
  have hidem : gmul (gpow a 255) (gpow a 255) = gpow a 255 := fieldValue_injective <|
    calc fieldValue (gmul (gpow a 255) (gpow a 255))
      _ = fieldValue a ^ 2 ^ 8 * fieldValue a ^ 254 := by
        rw [fieldValue_gmul, fieldValue_gpow]
        ring
      _ = fieldValue (gpow a 255) := by rw [fieldValue_pow_256, fieldValue_gpow, ← pow_succ']
  refine (eq_zero_or_one_of_gmul_self _ hidem).resolve_left fun hzero => ha ?_
  calc a
    _ = gpow a 256 := fieldValue_injective ((fieldValue_gpow a 256).trans (fieldValue_pow_256 a)).symm
    _ = gmul (gpow a 255) a := rfl
    _ = 0x00 := by rw [hzero, gmul_comm, gmul_zero]

theorem gmul_ginv {a : Byte} (ha : a ≠ 0x00) : gmul (ginv a) a = 0x01 := by
  rw [ginv_eq_gpow]
  exact gpow_255 ha

theorem ginv_zero : ginv 0x00 = 0x00 := by
  rw [ginv_eq_gpow]
  exact gmul_zero _

/-- A nonzero factor cancels against its inverse. -/
theorem gmul_eq_zero {a b : Byte} (h : gmul a b = 0x00) : a = 0x00 ∨ b = 0x00 := by
  refine or_iff_not_imp_left.mpr fun ha => ?_
  calc b
    _ = gmul (gmul (ginv a) a) b := by rw [gmul_ginv ha, gmul_comm, gmul_one]
    _ = 0x00 := by rw [gmul_assoc, h, gmul_zero]

/-- Inverses are unique. -/
theorem ginv_eq_of_gmul_eq_one {a v : Byte} (h : gmul v a = 0x01) : ginv a = v := by
  have ha : a ≠ 0x00 := by
    rintro rfl
    rw [gmul_zero] at h
    exact absurd h (by decide)
  calc ginv a
    _ = gmul (ginv a) (gmul v a) := by rw [h, gmul_one]
    _ = gmul v (gmul (ginv a) a) := by rw [gmul_comm v, ← gmul_assoc, gmul_comm]
    _ = v := by rw [gmul_ginv ha, gmul_one]

theorem ginv_one : ginv 0x01 = 0x01 := ginv_eq_of_gmul_eq_one (gmul_one _)

theorem ginv_ginv (a : Byte) : ginv (ginv a) = a := by
  by_cases ha : a = 0x00
  · rw [ha, ginv_zero, ginv_zero]
  · exact ginv_eq_of_gmul_eq_one ((gmul_comm a _).trans (gmul_ginv ha))

/-! ### NOP's word and the result of a field command -/

/-- The only row whose opcode byte is 0x00 is NOP's, and it fixes the whole word (R84). -/
theorem opcodeRows_opcode_zero :
    ∀ row ∈ opcodeRows, row.2.1 &&& 0x000000FF = 0 → row.2.1 = 0 ∧ row.2.2 = BitVec.allOnes 32 := by decide

theorem decode_eq_none_of_opcode_zero {w : Word} (hop : w.extractLsb' 0 8 = 0) (hw : w ≠ 0) : decode w = none := by
  refine Option.eq_none_iff_forall_ne_some.mpr fun i hi => hw ?_
  obtain ⟨hmem, hmatch⟩ := decode_eq_some_iff.mp hi
  have hrow := rowOf_mem_opcodeRows hmem
  have hlow : w &&& 0x000000FF = 0 := (setWidth_extractLsb'_shiftLeft w 0 8).symm.trans (by rw [hop]; rfl)
  have hmask : i.maskWord &&& 0x000000FF = 0x000000FF := opcodeRows_mask_opcode _ hrow
  have hopcode : i.matchWord &&& 0x000000FF = 0 := by rw [← hmatch, BitVec.and_assoc, hmask, hlow]
  obtain ⟨hzero, hones⟩ : i.matchWord = 0 ∧ i.maskWord = BitVec.allOnes 32 := opcodeRows_opcode_zero _ hrow hopcode
  calc w
    _ = w &&& i.maskWord := by rw [hones, BitVec.and_allOnes]
    _ = 0 := hmatch.trans hzero

theorem exec_add_r {s : State} {v : Byte} (h : s.a ^^^ s.b = v) : ∃ t, exec .add s = .next t ∧ t.r = v := ⟨_, rfl, h⟩

theorem exec_mul_r {s : State} {v : Byte} (h : gmul s.a s.b = v) : ∃ t, exec .mul s = .next t ∧ t.r = v := ⟨_, rfl, h⟩

/-- The value INV writes is checked by one product with A. -/
theorem exec_inv_r {s : State} {a v : Byte} (h : gmul v a = 0x01) (ha : s.a = a) :
    ∃ t, exec .inv s = .next t ∧ t.r = v :=
  ⟨_, rfl, (congrArg ginv ha).trans (ginv_eq_of_gmul_eq_one h)⟩

/-! ### The statements settled -/

/-- Settles O16: equal classes differ by a multiple of the reduction polynomial. -/
theorem gmulIsPolynomialProduct : Obligations.GmulIsPolynomialProduct := by
  intro a b
  refine ⟨bytePoly_xor a b, ?_⟩
  have hclass : mk reductionPoly (bytePoly (gmul a b)) = mk reductionPoly (bytePoly a * bytePoly b) :=
    (fieldValue_gmul a b).trans (map_mul ..).symm
  exact mk_eq_mk.mp hclass

/-- Settles O17: the laws of the ring of classes, and inverses for the absence of zero divisors. -/
theorem gmulFieldLaws : Obligations.GmulFieldLaws := fun a b c =>
  ⟨gmul_comm a b, (gmul_assoc a b c).symm, gmul_xor a b c, gmul_one a, gmul_zero a, gmul_eq_zero,
    (gmul_two a).trans (xtime_eq a)⟩

/-- Settles O18: the chain is a^254, and a^254 times a nonzero a is a^255 = 0x01. -/
theorem ginvInverts : Obligations.GinvInverts :=
  ⟨fun _ => gmul_ginv, ginv_zero, ginv_ginv, ginv_one, fun a => ⟨ginv_eq_gpow a, gpow_255⟩⟩

/-- Settles O12: no other word with opcode byte 0x00 matches a row, and the rest is the model's step as it stands. -/
theorem nopOnlyCompletes : Obligations.NopOnlyCompletes :=
  ⟨decodeInvertsEncode .nop rfl, fun _ => decode_eq_none_of_opcode_zero, fun _ => rfl, fun s => s.accept_done 0, _, rfl,
    by decide⟩

/-- Settles O13: the exact next state, and the values of the XOR in the corner cases. -/
theorem addWritesXor : Obligations.AddWritesXor := by
  refine ⟨decodeInvertsEncode .add rfl, fun s => ⟨rfl, ?equal, ?zero, ?sample⟩⟩
  case equal => exact fun h => exec_add_r (by rw [h]; exact BitVec.xor_self)
  case zero => exact fun h => exec_add_r (by rw [h]; exact BitVec.xor_zero)
  case sample => exact fun ha hb => exec_add_r (by rw [ha, hb]; rfl)

/-- Settles O14: the corner cases are the laws of zero and one. -/
theorem mulWritesFieldProduct : Obligations.MulWritesFieldProduct := by
  refine ⟨decodeInvertsEncode .mul rfl, fun s => ⟨rfl, ?zero, ?one, ?shift, ?ones, ?sample⟩⟩
  case zero =>
    rintro (h | h)
    · exact exec_mul_r (by rw [h, gmul_comm, gmul_zero])
    · exact exec_mul_r (by rw [h, gmul_zero])
  case one => exact fun h => exec_mul_r (by rw [h, gmul_one])
  case shift => exact fun ha hb => exec_mul_r (by rw [ha, hb]; decide)
  case ones => exact fun ha hb => exec_mul_r (by rw [ha, hb]; decide)
  case sample => exact fun ha hb => exec_mul_r (by rw [ha, hb]; decide)

/-- Settles O15: each nonzero value of the corner cases is the one whose product with A is 0x01. -/
theorem invWritesFieldInverse : Obligations.InvWritesFieldInverse := by
  refine ⟨decodeInvertsEncode .inv rfl, fun s => ⟨rfl, ?zero, ?one, ?two, ?ones, ?sample⟩⟩
  case zero => exact fun h => ⟨_, rfl, (congrArg ginv h).trans ginv_zero, rfl⟩
  case one => exact exec_inv_r (gmul_one _)
  case two => exact exec_inv_r (by decide)
  case ones => exact exec_inv_r (by decide)
  case sample => exact exec_inv_r (by decide)

end Sys2Proof.Machine
end

section
/-! PROOFS of the family of spec/41_byte_sharing.md: the share polynomial and the Lagrange basis over GF(256). First the
sums and products of R9 on field classes, Horner's rule, and basis(i) as a quotient of products; then the field itself
and interpolation at 0; then what the commands answer and which operations they make; last the statements settled. -/

namespace Sys2Proof.Machine

open Sys2Proof.Reference Polynomial AdjoinRoot

/-! ### Products and sums of bytes (R9, R104) -/

/-- `BitVec.zero_xor` in the spelling of the model's 0x00. -/
theorem zero_xor_byte (a : Byte) : 0x00 ^^^ a = a := BitVec.zero_xor

theorem xor_zero_byte (a : Byte) : a ^^^ 0x00 = a := BitVec.xor_zero

theorem zero_gmul (a : Byte) : gmul 0x00 a = 0x00 := (gmul_comm _ _).trans (gmul_zero a)

theorem one_gmul (a : Byte) : gmul 0x01 a = a := (gmul_comm _ _).trans (gmul_one a)

theorem fieldValue_xorSum (f : Nat → Byte) (n : Nat) :
    fieldValue (xorSum f n) = ∑ i ∈ Finset.range n, fieldValue (f i) := by
  induction n with
  | zero => exact fieldValue_zero
  | succ n ih => rw [xorSum, fieldValue_xor, ih, Finset.sum_range_succ]

theorem fieldValue_gprod (f : Nat → Byte) (l : List Nat) :
    fieldValue (gprod f l) = (l.map fun j => fieldValue (f j)).prod := by
  induction l with
  | nil => exact fieldValue_one
  | cons j l ih => rw [gprod, fieldValue_gmul, ih, List.map_cons, List.prod_cons]

theorem gprod_append_singleton (f : Nat → Byte) (l : List Nat) (j : Nat) :
    gprod f (l ++ [j]) = gmul (gprod f l) (f j) :=
  fieldValue_injective (by simp [fieldValue_gprod, fieldValue_gmul])

theorem gprod_perm (f : Nat → Byte) {l l' : List Nat} (h : l.Perm l') : gprod f l = gprod f l' :=
  fieldValue_injective (by rw [fieldValue_gprod, fieldValue_gprod, (h.map _).prod_eq])

theorem gprod_eq_zero {f : Nat → Byte} {l : List Nat} {j : Nat} (hj : j ∈ l) (hf : f j = 0x00) : gprod f l = 0x00 :=
  fieldValue_injective (by
    rw [fieldValue_gprod, fieldValue_zero]
    exact List.prod_eq_zero (List.mem_map.mpr ⟨j, hj, by rw [hf, fieldValue_zero]⟩))

theorem xorSum_eq_zero {f : Nat → Byte} {n : Nat} (h : ∀ i < n, f i = 0x00) : xorSum f n = 0x00 :=
  fieldValue_injective (by
    rw [fieldValue_xorSum, fieldValue_zero]
    exact Finset.sum_eq_zero fun i hi => by rw [h i (Finset.mem_range.mp hi), fieldValue_zero])

theorem gpow_one (n : Nat) : gpow 0x01 n = 0x01 :=
  fieldValue_injective (by rw [fieldValue_gpow, fieldValue_one, one_pow])

theorem forUp_xor (f : Nat → Byte) (n : Nat) : forUp n (fun i acc => acc ^^^ f i) 0x00 = xorSum f n := by
  induction n with
  | zero => rfl
  | succ n ih => rw [forUp_succ, ih, xorSum]

/-! ### The share polynomial (R120) -/

/-- Horner's rule from degree n down to 1, over coefficients f and an accumulator y. -/
theorem gmul_forDown_horner (f : Nat → Byte) (x y : Byte) (n : Nat) :
    gmul (forDown n (fun c y => gmul y x ^^^ f c) y) x
      = gmul y (gpow x (n + 1)) ^^^ xorSum (fun j => gmul (f (j + 1)) (gpow x (j + 1))) n := by
  induction n generalizing y with
  | zero => exact (congrArg (gmul y) (one_gmul x).symm).trans (xor_zero_byte _).symm
  | succ n ih =>
    rw [forDown_succ, ih, xorSum]
    apply fieldValue_injective
    simp only [fieldValue_xor, fieldValue_gmul, fieldValue_gpow]
    ring

theorem poly_eq_sharePolynomial (s : State) (p : Nat) (x : Byte) : s.poly p x = sharePolynomial s p x := by
  rw [State.poly, sharePolynomial, gmul_forDown_horner, zero_gmul, zero_xor_byte, BitVec.xor_comm]

theorem poly_of_countK_le_one {s : State} (hk : s.countK ≤ 1) (p : Nat) (x : Byte) : s.poly p x = s.key p := by
  rw [poly_eq_sharePolynomial, sharePolynomial, Nat.sub_eq_zero_of_le hk]
  exact xor_zero_byte _

theorem poly_zero (s : State) (p : Nat) : s.poly p 0x00 = s.key p := by
  have hterm : ∀ j < s.countK - 1, gmul (s.coef p (j + 1)) (gpow 0x00 (j + 1)) = 0x00 := fun j _ => by
    rw [gpow, gmul_zero, gmul_zero]
  rw [poly_eq_sharePolynomial, sharePolynomial, xorSum_eq_zero hterm, xor_zero_byte]

theorem poly_one (s : State) (p : Nat) :
    s.poly p 0x01 = s.key p ^^^ xorSum (fun j => s.coef p (j + 1)) (s.countK - 1) := by
  simp only [poly_eq_sharePolynomial, sharePolynomial, gpow_one, gmul_one]

/-- The value at x of the polynomial with K = 3 and the bytes 0x42, 0x17, 0x55, the example of R121 and R122. -/
theorem poly_example {s : State} (hk : s.countK = 3) (hkey : s.key 0 = 0x42) (h1 : s.coef 0 1 = 0x17)
    (h2 : s.coef 0 2 = 0x55) (x : Byte) : s.poly 0 x = gmul (gmul 0x55 x ^^^ 0x17) x ^^^ 0x42 := by
  simp only [State.poly, hk, forDown_succ, forDown_zero, hkey, h1, h2, zero_gmul, zero_xor_byte]

/-! ### basis(i) as a quotient of products (R123) -/

/-- The other points of basis(i), in the order of the loop. -/
def otherPoints (i n : Nat) : List Nat := (List.range n).filter fun j => j ≠ i

theorem mem_otherPoints {i n j : Nat} : j ∈ otherPoints i n ↔ j < n ∧ j ≠ i := by
  simp [otherPoints]

theorem nodup_otherPoints (i n : Nat) : (otherPoints i n).Nodup := List.nodup_range.filter _

theorem toFinset_otherPoints (i n : Nat) : (otherPoints i n).toFinset = (Finset.range n).erase i := by
  ext j
  simp [mem_otherPoints, and_comm]

theorem otherPoints_succ (i n : Nat) : otherPoints i (n + 1) = otherPoints i n ++ if n = i then [] else [n] := by
  by_cases h : n = i <;> simp [otherPoints, List.range_succ, List.filter_append, h]

theorem basisProducts_eq (s : State) (i n : Nat) :
    s.basisProducts i n
      = (gprod s.sx (otherPoints i n), gprod (fun j => s.sx i ^^^ s.sx j) (otherPoints i n)) := by
  induction n with
  | zero => rfl
  | succ n ih =>
    have hstep : s.basisProducts i (n + 1) = if n = i then s.basisProducts i n else
        (gmul (s.basisProducts i n).1 (s.sx n), gmul (s.basisProducts i n).2 (s.sx i ^^^ s.sx n)) := rfl
    rw [hstep, ih, otherPoints_succ]
    split
    · rw [List.append_nil]
    · rw [gprod_append_singleton, gprod_append_singleton]

theorem basis_eq (s : State) (i : Nat) :
    s.basis i = gmul (gprod s.sx (otherPoints i s.countM))
      (ginv (gprod (fun j => s.sx i ^^^ s.sx j) (otherPoints i s.countM))) := by
  rw [State.basis, basisProducts_eq]

theorem basis_of_countM_one {s : State} (hm : s.countM = 1) : s.basis 0 = 0x01 := by
  rw [basis_eq, hm]
  exact (one_gmul _).trans ginv_one

/-- The quotient of a nonzero denominator is checked by one product. -/
theorem gmul_ginv_eq {a b v : Byte} (hb : b ≠ 0x00) (h : gmul v b = a) : gmul a (ginv b) = v := by
  rw [← h, gmul_assoc, gmul_comm b, gmul_ginv hb, gmul_one]

/-- Two equal x-values make a factor of the denominator 0x00. -/
theorem basis_eq_zero_of_sx_eq {s : State} {i j : Nat} (hj : j < s.countM) (hij : i ≠ j) (hx : s.sx i = s.sx j) :
    s.basis i = 0x00 := by
  have hden : gprod (fun j => s.sx i ^^^ s.sx j) (otherPoints i s.countM) = 0x00 :=
    gprod_eq_zero (mem_otherPoints.mpr ⟨hj, hij.symm⟩) (BitVec.xor_eq_zero_iff.mpr hx)
  rw [basis_eq, hden, ginv_zero, gmul_zero]

/-- A zero x-value makes a factor of the numerator 0x00. -/
theorem basis_eq_zero_of_sx_zero {s : State} {i j : Nat} (hj : j < s.countM) (hij : i ≠ j) (hx : s.sx j = 0x00) :
    s.basis i = 0x00 := by
  rw [basis_eq, gprod_eq_zero (mem_otherPoints.mpr ⟨hj, hij.symm⟩) hx, zero_gmul]

theorem comb_eq_xorSum (s : State) (p : Nat) :
    s.comb p = xorSum (fun i => gmul (s.sy i p) (s.basis i)) s.countM := forUp_xor _ _

theorem comb_of_countM_one {s : State} (hm : s.countM = 1) (p : Nat) : s.comb p = s.sy 0 p := by
  rw [comb_eq_xorSum, hm]
  show 0x00 ^^^ gmul (s.sy 0 p) (s.basis 0) = s.sy 0 p
  rw [basis_of_countM_one hm, gmul_one, zero_xor_byte]

/-! ### GF(256) is a field -/

/-- The classes of the bytes are closed under sums and products and contain x. -/
theorem fieldValue_surjective : Function.Surjective fieldValue := by
  intro z
  induction z using AdjoinRoot.induction_on with | ih q =>
  induction q using Polynomial.induction_on with
  | C a =>
    fin_cases a
    · exact ⟨0x00, fieldValue_zero.trans (map_zero (of reductionPoly)).symm⟩
    · exact ⟨0x01, fieldValue_one.trans (map_one (of reductionPoly)).symm⟩
  | add q r hq hr =>
    obtain ⟨v, hv⟩ := hq
    obtain ⟨w, hw⟩ := hr
    exact ⟨v ^^^ w, by rw [fieldValue_xor, hv, hw, map_add]⟩
  | monomial n a ih =>
    obtain ⟨v, hv⟩ := ih
    exact ⟨gmul v 0x02, by rw [fieldValue_gmul, hv, fieldValue_two, ← mk_X, ← map_mul, pow_succ, mul_assoc]⟩

theorem isField_adjoinRoot : IsField (AdjoinRoot reductionPoly) where
  exists_pair_ne := ⟨fieldValue 0x00, fieldValue 0x01, fun h => absurd (fieldValue_injective h) (by decide)⟩
  mul_comm := mul_comm
  mul_inv_cancel {z} hz := by
    obtain ⟨v, rfl⟩ := fieldValue_surjective z
    have hv : v ≠ 0x00 := fun h => hz (by rw [h, fieldValue_zero])
    exact ⟨fieldValue (ginv v), by rw [mul_comm, ← fieldValue_gmul, gmul_ginv hv, fieldValue_one]⟩

theorem irreducible_reductionPoly : Irreducible reductionPoly := by
  have hne : reductionPoly ≠ 0 := ne_zero_of_degree_gt (n := 0) (by rw [degree_reductionPoly]; decide)
  have hmax := Ideal.Quotient.maximal_of_isField (Ideal.span {reductionPoly}) isField_adjoinRoot
  exact ((Ideal.span_singleton_prime hne).mp hmax.isPrime).irreducible

/-! ### Interpolation at 0 (R127) -/

/-- In characteristic 2 a difference is a sum. -/
theorem fieldValue_xor_sub (a b : Byte) : fieldValue (a ^^^ b) = fieldValue a - fieldValue b := by
  rw [eq_sub_iff_add_eq, ← fieldValue_xor, BitVec.xor_assoc, BitVec.xor_self, BitVec.xor_zero]

section Recovery

variable [Fact (Irreducible reductionPoly)]

theorem fieldValue_ginv (a : Byte) : fieldValue (ginv a) = (fieldValue a)⁻¹ := by
  by_cases ha : a = 0x00
  · rw [ha, ginv_zero, fieldValue_zero, inv_zero]
  · refine eq_inv_of_mul_eq_one_left ?_
    rw [← fieldValue_gmul, gmul_ginv ha, fieldValue_one]

/-- basis(i) is the value at 0 of the Lagrange basis polynomial of the points' x-values; in characteristic 2 the signs of
its factors fall away. -/
theorem fieldValue_basis (s : State) (i : Nat) :
    fieldValue (s.basis i)
      = (Lagrange.basis (Finset.range s.countM) (fun j => fieldValue (s.sx j)) i).eval 0 := by
  have hprod : ∀ f : Nat → Byte, fieldValue (gprod f (otherPoints i s.countM))
      = ∏ j ∈ (Finset.range s.countM).erase i, fieldValue (f j) := fun f => by
    rw [fieldValue_gprod, ← List.prod_toFinset _ (nodup_otherPoints i _), toFinset_otherPoints]
  rw [basis_eq, fieldValue_gmul, fieldValue_ginv, hprod, hprod, ← Finset.prod_inv_distrib, ← Finset.prod_mul_distrib,
    Lagrange.basis, eval_prod]
  refine Finset.prod_congr rfl fun j _ => ?_
  simp only [Lagrange.basisDivisor, eval_mul, eval_C, eval_sub, eval_X]
  rw [← fieldValue_zero, ← fieldValue_xor_sub, ← fieldValue_xor_sub, zero_xor_byte, mul_comm]

/-- The share polynomial over the field. -/
noncomputable def fieldPolynomial (s : State) (p : Nat) : (AdjoinRoot reductionPoly)[X] :=
  C (fieldValue (s.key p)) + ∑ j ∈ Finset.range (s.countK - 1), C (fieldValue (s.coef p (j + 1))) * X ^ (j + 1)

theorem eval_fieldPolynomial (s : State) (p : Nat) (x : Byte) :
    (fieldPolynomial s p).eval (fieldValue x) = fieldValue (s.poly p x) := by
  rw [poly_eq_sharePolynomial, sharePolynomial, fieldPolynomial, fieldValue_xor, fieldValue_xorSum]
  simp [eval_finsetSum, fieldValue_gmul, fieldValue_gpow]

theorem degree_fieldPolynomial_lt {s : State} (hk : 1 ≤ s.countK) (p : Nat) :
    (fieldPolynomial s p).degree < s.countK := by
  refine mem_degreeLT.mp (add_mem ?_ (sum_mem fun j hj => ?_)) <;> rw [mem_degreeLT]
  · exact degree_C_le.trans_lt (by exact_mod_cast hk)
  · have hlt : j + 1 < s.countK := by have := Finset.mem_range.mp hj; omega
    exact (degree_C_mul_X_pow_le _ _).trans_lt (by exact_mod_cast hlt)

/-- A polynomial of degree below M is the interpolation of its values at M points, so its value at 0 is the combined
byte. -/
theorem comb_eq_key {s t : State} {p : Nat} (hk : 1 ≤ s.countK) (hm : s.countK ≤ t.countM)
    (hy : ∀ i < t.countM, t.sy i p = s.poly p (t.sx i))
    (hx : ∀ i j, i < t.countM → j < t.countM → t.sx i = t.sx j → i = j) : t.comb p = s.key p := by
  have hinj : Set.InjOn (fun j => fieldValue (t.sx j)) (Finset.range t.countM) := fun i hi j hj h =>
    hx i j (Finset.mem_range.mp hi) (Finset.mem_range.mp hj) (fieldValue_injective h)
  have hdeg : (fieldPolynomial s p).degree < (Finset.range t.countM).card := by
    rw [Finset.card_range]
    exact (degree_fieldPolynomial_lt hk p).trans_le (by exact_mod_cast hm)
  have hinterp := Lagrange.eq_interpolate_of_eval_eq (fun i => fieldValue (t.sy i p)) hinj hdeg fun i hi => by
    rw [eval_fieldPolynomial, hy i (Finset.mem_range.mp hi)]
  refine fieldValue_injective ?_
  calc fieldValue (t.comb p)
    _ = (fieldPolynomial s p).eval 0 := by
      rw [hinterp, Lagrange.interpolate_apply, eval_finsetSum, comb_eq_xorSum, fieldValue_xorSum]
      simp only [eval_mul, eval_C, fieldValue_gmul, fieldValue_basis]
    _ = fieldValue (s.key p) := by rw [← fieldValue_zero, eval_fieldPolynomial, poly_zero]

end Recovery

/-! ### What the commands answer, by their parameter check (R121, R122, R124, R126) -/

theorem thresholdOk_iff {s : State} : s.thresholdOk = true ↔ s.countK ≠ 0 := decide_eq_true_iff

theorem createOk_iff {s : State} : s.createOk = true ↔ 1 ≤ s.countK ∧ s.countK ≤ s.countN := decide_eq_true_iff

theorem combineOk_iff {s : State} : s.combineOk = true ↔ s.countM ≠ 0 := decide_eq_true_iff

theorem basisOk_iff {s : State} {i : Nat} : s.basisOk i = true ↔ s.countM ≠ 0 ∧ i < s.countM := decide_eq_true_iff

theorem exec_eval_ok {s : State} (p : Nat) (h : s.countK ≠ 0) :
    exec (.eval p) s = .next ({ s with r := s.poly p s.a }.complete .ok) := if_pos (thresholdOk_iff.mpr h)

theorem exec_eval_invalid {s : State} (p : Nat) (h : s.countK = 0) :
    exec (.eval p) s = .next (s.complete .invalidParameters) :=
  if_neg fun hok => thresholdOk_iff.mp hok h

theorem exec_bshare_ok {s : State} (p : Nat) (h : 1 ≤ s.countK ∧ s.countK ≤ s.countN) :
    exec (.bshare p) s = .next ((s.createByteShares p s.countN).complete .ok) := if_pos (createOk_iff.mpr h)

theorem exec_bshare_invalid {s : State} (p : Nat) (h : ¬ (1 ≤ s.countK ∧ s.countK ≤ s.countN)) :
    exec (.bshare p) s = .next (s.complete .invalidParameters) := if_neg fun hok => h (createOk_iff.mp hok)

theorem exec_basis_ok {s : State} {i : Nat} (h : s.countM ≠ 0 ∧ i < s.countM) :
    exec (.basis i) s = .next ({ s with r := s.basis i }.complete .ok) := if_pos (basisOk_iff.mpr h)

theorem exec_basis_invalid {s : State} {i : Nat} (h : s.countM = 0 ∨ s.countM ≤ i) :
    exec (.basis i) s = .next (s.complete .invalidParameters) :=
  if_neg fun hok => by have := basisOk_iff.mp hok; omega

theorem exec_bcomb_ok {s : State} (p : Nat) (h : s.countM ≠ 0) :
    exec (.bcomb p) s = .next ((s.setKey p (s.comb p)).complete .ok) := if_pos (combineOk_iff.mpr h)

theorem exec_bcomb_invalid {s : State} (p : Nat) (h : s.countM = 0) :
    exec (.bcomb p) s = .next (s.complete .invalidParameters) :=
  if_neg fun hok => combineOk_iff.mp hok h

/-- The x-value of record i is nonzero for every index a record can have. -/
theorem ofNat_succ_ne_zero {i : Nat} (hi : i < 255) : BitVec.ofNat 8 (i + 1) ≠ 0x00 := by
  bv_omega

/-! ### The operations as lists (R129, R212) -/

/-- A loop that adds the operations of each iteration lists them in the order of the indices. -/
theorem forUp_append (g : Nat → List Op) (n : Nat) (l : List Op) :
    forUp n (fun i l => l ++ g i) l = l ++ (List.range n).flatMap g := by
  induction n with
  | zero => simp
  | succ n ih => rw [forUp_succ, ih, List.range_succ, List.flatMap_append, List.append_assoc, List.flatMap_singleton]

theorem forDown_append (g : Nat → List Op) (n : Nat) (l : List Op) :
    forDown n (fun c l => l ++ g c) l = l ++ (List.range n).reverse.flatMap fun c => g (c + 1) := by
  induction n generalizing l with
  | zero => simp
  | succ n ih => simp [forDown_succ, ih, List.range_succ]

theorem polyC_ops_eq (s : State) (p : Nat) (x : Byte) :
    (s.polyC p x).2
      = ((List.range (s.countK - 1)).reverse.flatMap fun c => [Op.gmul, .load (coefAddr p (c + 1))])
        ++ [Op.gmul, .load (keyAddr p)] := by
  rw [polyC_snd]
  simp only [List.append_assoc, List.singleton_append]
  rw [forDown_append, List.nil_append]

/-- One product for each coefficient and one for KEY[p]. -/
theorem count_gmul_polyC (s : State) (p : Nat) (x : Byte) : (s.polyC p x).2.count .gmul = s.countK - 1 + 1 := by
  simp [polyC_ops_eq, List.count_flatMap, Function.comp_def]

theorem basisProductsC_ops_eq (s : State) (i n : Nat) :
    (s.basisProductsC i n).2
      = (List.range n).flatMap fun j => if j = i then [] else
          [.load (sxAddr j), .gmul, .load (sxAddr i), .load (sxAddr j), .gmul] := by
  rw [basisProductsC_snd, ← List.nil_append (List.flatMap _ _), ← forUp_append]
  refine forUp_congr fun j l _ => ?_
  split
  · rw [List.append_nil]
  · rfl

theorem combC_ops_eq (s : State) (p : Nat) :
    (s.combC p).2 = (List.range s.countM).flatMap fun i => .load (syAddr i p) :: ((s.basisC i).2 ++ [.gmul]) := by
  rw [combC_snd, ← List.nil_append (List.flatMap _ _), ← forUp_append]
  exact forUp_congr fun i l _ => by simp only [List.append_assoc, List.cons_append, List.nil_append]

/-- The operations of poly do not depend on the memory, so each record of BSHARE makes those of the state before. -/
theorem createByteSharesC_ops_eq (s : State) (p n : Nat) :
    (s.createByteSharesC p n).2
      = (List.range n).flatMap fun i => .store (sxAddr i) :: ((s.polyC p 0x00).2 ++ [.store (syAddr i p)]) := by
  induction n with
  | zero => rfl
  | succ n ih =>
    set u := (s.createByteSharesC p n).1.setSx n (BitVec.ofNat 8 (n + 1)) with hu
    have hstep : (s.createByteSharesC p (n + 1)).2
        = (s.createByteSharesC p n).2 ++ [.store (sxAddr n)] ++ (u.polyC p (BitVec.ofNat 8 (n + 1))).2
          ++ [.store (syAddr n p)] := rfl
    have hk : u.countK = s.countK := by
      rw [hu, createByteSharesC_fst, createByteShares_frame]
      rfl
    have hpoly : (u.polyC p (BitVec.ofNat 8 (n + 1))).2 = (s.polyC p 0x00).2 := polyC_ops hk p _ _
    rw [hstep, hpoly, ih, List.range_succ, List.flatMap_append, List.flatMap_singleton]
    simp only [List.append_assoc, List.cons_append, List.nil_append]

/-! ### The RAM locations touched (R129) -/

/-- The RAM locations of a list of operations, as State.touched lists them. -/
def touches (l : List Op) (a : Nat) : Prop := a ∈ l.filterMap Op.location

theorem mem_touched {s : State} {j : Instr} {a : Nat} : a ∈ s.touched j ↔ touches (s.opsOf j) a := Iff.rfl

section Touches

variable {a x : Nat} {l l' : List Op}

@[simp] theorem touches_nil : touches [] a ↔ False := List.mem_nil_iff a

@[simp] theorem touches_gmul : touches (.gmul :: l) a ↔ touches l a := Iff.rfl

@[simp] theorem touches_load : touches (.load x :: l) a ↔ a = x ∨ touches l a := List.mem_cons

@[simp] theorem touches_store : touches (.store x :: l) a ↔ a = x ∨ touches l a := List.mem_cons

@[simp] theorem touches_append : touches (l ++ l') a ↔ touches l a ∨ touches l' a := by
  rw [touches, List.filterMap_append, List.mem_append, touches, touches]

@[simp] theorem touches_flatMap {g : Nat → List Op} {js : List Nat} :
    touches (js.flatMap g) a ↔ ∃ j ∈ js, touches (g j) a := by
  simp [touches, List.filterMap_flatMap]

end Touches

/-- The bytes of the share polynomial of position p. -/
theorem touches_polyC {s : State} {p a : Nat} (x : Byte) :
    touches (s.polyC p x).2 a ↔ a = keyAddr p ∨ ∃ c, 1 ≤ c ∧ c < s.countK ∧ a = coefAddr p c := by
  simp only [polyC_ops_eq, touches_append, touches_flatMap, touches_gmul, touches_load, touches_nil, or_false,
    List.mem_reverse, List.mem_range]
  constructor
  · rintro (⟨c, hc, rfl⟩ | rfl)
    · exact .inr ⟨c + 1, by omega, by omega, rfl⟩
    · exact .inl rfl
  · rintro (rfl | ⟨c, h1, h2, rfl⟩)
    · exact .inr rfl
    · exact .inl ⟨c - 1, by omega, by rw [Nat.sub_add_cancel h1]⟩

/-- Each record gets its two bytes, and the first already reads the whole polynomial. -/
theorem touches_createByteSharesC {s : State} {p n a : Nat} (hn : 1 ≤ n) :
    touches (s.createByteSharesC p n).2 a ↔
      touches (s.polyC p 0x00).2 a ∨ ∃ j, j < n ∧ (a = sxAddr j ∨ a = syAddr j p) := by
  simp only [createByteSharesC_ops_eq, touches_flatMap, touches_store, touches_append, touches_nil, or_false,
    List.mem_range]
  constructor
  · rintro ⟨j, hj, rfl | hp | rfl⟩
    · exact .inr ⟨j, hj, .inl rfl⟩
    · exact .inl hp
    · exact .inr ⟨j, hj, .inr rfl⟩
  · rintro (hp | ⟨j, hj, rfl | rfl⟩)
    · exact ⟨0, hn, .inr (.inl hp)⟩
    · exact ⟨j, hj, .inl rfl⟩
    · exact ⟨j, hj, .inr (.inr rfl)⟩

/-- Each other point's turn reads its x-value and that of i; ginv and the last product touch no RAM. -/
theorem touches_basisC_iff {s : State} {i a : Nat} :
    touches (s.basisC i).2 a ↔ ∃ j < s.countM, j ≠ i ∧ (a = sxAddr j ∨ a = sxAddr i) := by
  have hginv : ¬ touches (.ginv :: List.replicate 13 .gmul) a := nofun
  simp only [basisC_snd, basisProductsC_ops_eq, touches_append, hginv, touches_flatMap, touches_gmul, touches_nil,
    or_false, List.mem_range]
  refine exists_congr fun j => and_congr_right fun _ => ?_
  by_cases h : j = i
  · simp [h]
  · rw [if_neg h]
    simp only [touches_load, touches_gmul, touches_nil]
    tauto

/-- With another point beside i, the products read every x-value, that of i among them. -/
theorem touches_basisC {s : State} {i a : Nat} (hi : i < s.countM) :
    touches (s.basisC i).2 a ↔ 2 ≤ s.countM ∧ ∃ j, j < s.countM ∧ a = sxAddr j := by
  rw [touches_basisC_iff]
  constructor
  · rintro ⟨j, hj, hji, rfl | rfl⟩
    · exact ⟨by omega, j, hj, rfl⟩
    · exact ⟨by omega, i, hi, rfl⟩
  · rintro ⟨hm, j, hj, rfl⟩
    by_cases hji : j = i
    · subst hji
      exact ⟨if j = 0 then 1 else 0, by split <;> omega, by split <;> omega, .inr rfl⟩
    · exact ⟨j, hj, hji, .inl rfl⟩

theorem touches_combC {s : State} {p a : Nat} :
    touches (s.combC p).2 a ↔ ∃ j, j < s.countM ∧ (a = syAddr j p ∨ (2 ≤ s.countM ∧ a = sxAddr j)) := by
  simp only [combC_ops_eq, touches_flatMap, touches_load, touches_append, touches_gmul, touches_nil, or_false,
    List.mem_range]
  constructor
  · rintro ⟨i, hi, rfl | hb⟩
    · exact ⟨i, hi, .inl rfl⟩
    · obtain ⟨hm, j, hj, rfl⟩ := (touches_basisC hi).mp hb
      exact ⟨j, hj, .inr ⟨hm, rfl⟩⟩
  · rintro ⟨j, hj, rfl | ⟨hm, rfl⟩⟩
    · exact ⟨j, hj, .inl rfl⟩
    · exact ⟨j, hj, .inr ((touches_basisC hj).mpr ⟨hm, j, hj, rfl⟩)⟩

/-! ### The operations of a draw depend on which answers fail (R140) -/

/-- The code and the operations of the rest of a draw, from the fails alone; none where a request is unanswered. -/
def drawOps (k : Nat) : List (Nat × Nat) → List Bool → Option (ErrCode × List Op)
  | [], _ => some (.ok, [])
  | _ :: _, [] => none
  | _ :: _, true :: _ =>
    some (.randomSourceExhausted, .request :: (drawOrder k).map fun pc => .store (coefAddr pc.1 pc.2))
  | pc :: rest, false :: q =>
    (drawOps k rest q).map fun d => (d.1, .request :: .store (coefAddr pc.1 pc.2) :: d.2)

theorem zeroCoefsC_ops_eq (s : State) (k : Nat) :
    (s.zeroCoefsC k).2 = (drawOrder k).map fun pc => .store (coefAddr pc.1 pc.2) := by
  have hsnd : (s.zeroCoefsC k).2 = (drawOrder k).foldl (fun l pc => l ++ [Op.store (coefAddr pc.1 pc.2)]) [] :=
    (List.foldl_hom (f := Prod.snd) (init := (s, [])) (H := fun _ _ => rfl) (l := drawOrder k)).symm
  rw [hsnd, List.foldl_append_eq_append, List.nil_append, ← List.flatMap_def, ← List.map_eq_flatMap]

theorem drawFromC_ops (k : Nat) (ps : List (Nat × Nat)) (s : State) :
    (State.drawFromC k ps s).map (fun d => (d.1.1, d.2)) = drawOps k ps (answerFails s) := by
  induction ps generalizing s with
  | nil => rfl
  | cons pc ps ih =>
    cases h : s.rng with
    | nil => simp [State.drawFromC, drawOps, answerFails, h]
    | cons x q =>
      cases x with
      | fail => simp [State.drawFromC, drawOps, answerFails, h, zeroCoefsC_ops_eq]
      | byte v =>
        have hrest := ih ({ s with rng := q }.setCoef pc.1 pc.2 v)
        have hfails : answerFails s = false :: answerFails ({ s with rng := q }.setCoef pc.1 pc.2 v) := by
          simp [answerFails, h]
        rw [hfails, drawOps, ← hrest, State.drawFromC, h, Option.map_map, Option.map_map]
        rfl

/-- A draw leaves PARAM as it is. -/
theorem rngdrawC_params {s : State} {d : Counted (ErrCode × State)} (h : s.rngdrawC = some d) :
    SameOps (d.1.2, []) (s, []) := by
  have hdraw : s.rngdraw = some d.1 := by rw [← rngdrawC_fst, h]; rfl
  rcases rngdraw_cases s with hn | ⟨e, u, q, hd, hO, -⟩
  · rw [hn] at hdraw
    cases hdraw
  · have hd1 : d.1 = (e, { u with rng := q }) := Option.some.inj (hdraw.symm.trans hd)
    rw [hd1]
    exact ⟨rfl, hO.countK_eq, hO.countM_eq⟩

theorem opsOf_rngfill (s : State) :
    s.opsOf .rngfill
      = if s.thresholdOk then (drawOps s.countK (drawOrder s.countK) (answerFails s)).elim [] Prod.snd else [] := by
  rw [← drawFromC_ops, ← State.rngdrawC, State.opsOf]
  cases s.rngdrawC <;> rfl

theorem opsOf_kcreate (s : State) :
    s.opsOf .kcreate
      = if s.createOk then
          (drawOps s.countK (drawOrder s.countK) (answerFails s)).elim [] fun d =>
            if d.1 = .ok then d.2 ++ (s.createSharesC s.countN).2 else d.2
        else [] := by
  rw [← drawFromC_ops, ← State.rngdrawC, State.opsOf]
  cases h : s.rngdrawC with
  | none => rfl
  | some d =>
    simp only [Option.map_some, Option.elim_some, (createSharesC_ops (rngdrawC_params h) s.countN).ops]

/-- The operations of a command are those of its counts N, K and M and, if it draws, of the fails among the answers. -/
theorem opsOf_congr {s t : State} {j : Instr} (hN : t.paramN = s.paramN) (hK : t.paramK = s.paramK)
    (hM : t.paramM = s.paramM) (hdraw : Draws j → answerFails t = answerFails s) : t.opsOf j = s.opsOf j := by
  have hn : t.countN = s.countN := congrArg BitVec.toNat hN
  have hk : t.countK = s.countK := congrArg BitVec.toNat hK
  have hm : t.countM = s.countM := congrArg BitVec.toNat hM
  have hsame : SameOps (t, []) (s, []) := ⟨rfl, hk, hm⟩
  have hthreshold : t.thresholdOk = s.thresholdOk := by rw [State.thresholdOk, hk, State.thresholdOk]
  have hcreate : t.createOk = s.createOk := by rw [State.createOk, hk, hn, State.createOk]
  have hcombine : t.combineOk = s.combineOk := by rw [State.combineOk, hm, State.combineOk]
  cases j with
  | nop | add | zero => rfl
  | mul => simp only [State.opsOf, gmulC_snd]
  | inv => simp only [State.opsOf, ginvC_snd]
  | eval p => simp only [State.opsOf, hthreshold, polyC_ops hk p t.a s.a]
  | bshare p => simp only [State.opsOf, hcreate, hn, (createByteSharesC_ops hsame p s.countN).ops]
  | basis i =>
    have hbasis : t.basisOk i = s.basisOk i := by rw [State.basisOk, hm, State.basisOk]
    simp only [State.opsOf, hbasis, basisC_ops hm]
  | bcomb p => simp only [State.opsOf, hcombine, combC_ops hm, storeC_snd]
  | rngfill => rw [opsOf_rngfill, opsOf_rngfill, hthreshold, hk, hdraw (.inl rfl)]
  | kshare => simp only [State.opsOf, hcreate, hn, (createSharesC_ops hsame s.countN).ops]
  | kcreate =>
    rw [opsOf_kcreate, opsOf_kcreate, hcreate, hk, hn, hdraw (.inr rfl), (createSharesC_ops hsame s.countN).ops]
  | kcomb => simp only [State.opsOf, hcombine, (combineKeyC_ops hsame).ops]

/-! ### The statements settled -/

/-- Settles O19: Horner's rule distributed, and one product in each of its K steps. -/
theorem hornerEvaluatesSharePolynomial : Obligations.HornerEvaluatesSharePolynomial := fun s p x hk =>
  ⟨poly_eq_sharePolynomial s p x, (count_gmul_polyC s p x).trans (Nat.sub_add_cancel hk), polyC_fst s p x⟩

/-- Settles O20: the value at A of the share polynomial, with the powers of 0x00 and 0x01 in the corner cases. -/
theorem evalWritesPolynomialValue : Obligations.EvalWritesPolynomialValue := by
  refine fun p hp => ⟨decodeInvertsEncode (.eval p) (decide_eq_true hp), fun s =>
    ⟨exec_eval_invalid p, exec_eval_ok p, ?one, poly_zero s p, poly_one s p, ?sample⟩⟩
  case one => exact fun hk => poly_of_countK_le_one hk.le p s.a
  case sample =>
    intro hk hkey h1 h2 ha
    refine ⟨_, exec_eval_ok 0 (by omega), ?_⟩
    show s.poly 0 s.a = 0x23
    rw [poly_example hk hkey h1 h2, ha]
    decide

/-- Settles O21: the loop stores the points of the polynomial of the state before, and into SHARE only. -/
theorem bshareWritesPoints : Obligations.BshareWritesPoints := by
  refine fun s p hp hwf => ⟨decodeInvertsEncode (.bshare p) (decide_eq_true hp), ?sample, exec_bshare_invalid p, ?ok⟩
  case sample =>
    intro hk hkey h1 h2
    simp only [poly_example hk hkey h1 h2]
    decide
  case ok =>
    intro h
    have hn := countN_le s
    have hstores := createByteShares_onlyRam s hp hn
    refine ⟨_, exec_bshare_ok p h, congrArg (State.complete · .ok) hstores.frame, fun i hi => ?_, fun a ha => ?_⟩
    · obtain ⟨hx, hy⟩ := createByteShares_points s hwf hp hn i hi
      exact ⟨hx, hx.trans_ne (ofNat_succ_ne_zero (by omega)), hy,
        fun hk => hy.trans (poly_of_countK_le_one hk.le p _)⟩
    · refine hstores.unchanged a ?_
      rintro ⟨i, hi, hx | hy⟩
      · exact (ha i hi).1 hx
      · exact (ha i hi).2 hy

/-- Settles O22: the loop multiplies the factors in rising order, and products do not depend on the order. -/
theorem basisIsLagrangeQuotient : Obligations.BasisIsLagrangeQuotient := by
  intro s i order _ hperm
  rw [basis_eq, gprod_perm s.sx hperm, gprod_perm (fun j => s.sx i ^^^ s.sx j) hperm]
  rfl

/-- Settles O23: the example's quotients are checked by the product with their denominators. -/
theorem basisWritesBasisValue : Obligations.BasisWritesBasisValue := by
  refine ⟨fun i hi => decodeInvertsEncode (.basis i) (decide_eq_true hi), fun s i =>
    ⟨exec_basis_invalid, exec_basis_ok, basis_of_countM_one, fun hm h0 h1 h2 => ?_⟩⟩
  have hvalue : ∀ j, s.basis j = gmul (s.basisProducts j 3).1 (ginv (s.basisProducts j 3).2) := fun j => by
    rw [State.basis, hm]
  simp only [hvalue, State.basisProducts, forUp_succ, forUp_zero, h0, h1, h2]
  exact ⟨gmul_ginv_eq (by decide) (by decide), gmul_ginv_eq (by decide) (by decide),
    gmul_ginv_eq (by decide) (by decide)⟩

/-- Settles O24: one byte of KEY is stored, the XOR that the loop of R125 accumulates. -/
theorem bcombWritesCombinedByte : Obligations.BcombWritesCombinedByte := by
  refine fun s p hp hwf =>
    ⟨decodeInvertsEncode (.bcomb p) (decide_eq_true hp), exec_bcomb_invalid p, fun hm => ?_⟩
  have hkey : (s.setKey p (s.comb p)).key p = s.comb p := Memory.read_write_same hwf _ _
  exact ⟨_, exec_bcomb_ok p hm, rfl, hkey.trans (comb_eq_xorSum s p), fun h1 => hkey.trans (comb_of_countM_one h1 p),
    fun a ha => Memory.read_write_other _ _ ha⟩

/-- Settles O25: a zero factor of the denominator or of the numerator makes the quotient 0x00. -/
theorem degeneratePointsGiveZeroBasis : Obligations.DegeneratePointsGiveZeroBasis := fun _ _ _ hi hj hij =>
  ⟨fun hx => ⟨basis_eq_zero_of_sx_eq hj hij hx, basis_eq_zero_of_sx_eq hi hij.symm hx.symm⟩,
    basis_eq_zero_of_sx_zero hj hij⟩

/-- Settles O26: Lagrange interpolation at 0 over the field GF(256). -/
theorem combineRecoversSecretByte : Obligations.CombineRecoversSecretByte := by
  intro s t p hk hm hpoints hx
  have : Fact (Irreducible reductionPoly) := ⟨irreducible_reductionPoly⟩
  exact comb_eq_key hk hm (fun i hi => (hpoints i hi).2) hx

/-- Settles O60: the counts are functions of the operations, which the public values fix; then the locations of each
command's list of operations. -/
theorem touchedLocationsArePublic : Obligations.TouchedLocationsArePublic := by
  refine ⟨fun s t j hN hK hM hdraw => ?ops, fun s p i a => ⟨?eval, ?bshare, ?basis, ?bcomb⟩⟩
  case ops =>
    have hops := opsOf_congr hN hK hM hdraw
    exact ⟨hops, by rw [State.gmulCalls, hops, State.gmulCalls], by rw [State.ginvCalls, hops, State.ginvCalls],
      by rw [State.touched, hops, State.touched]⟩
  case eval =>
    intro hk
    rw [mem_touched, State.opsOf, if_pos (thresholdOk_iff.mpr (by omega)), touches_polyC]
  case bshare =>
    intro hk hkn
    rw [mem_touched, State.opsOf, if_pos (createOk_iff.mpr ⟨hk, hkn⟩), touches_createByteSharesC (by omega),
      touches_polyC, or_assoc]
  case basis =>
    intro hi
    rw [mem_touched, State.opsOf, if_pos (basisOk_iff.mpr ⟨by omega, hi⟩), touches_basisC hi]
  case bcomb =>
    intro hm
    rw [mem_touched, State.opsOf, if_pos (combineOk_iff.mpr (by omega)), touches_append, touches_combC, storeC_snd,
      touches_store, touches_nil, or_false, or_comm]

end Sys2Proof.Machine
end

section
/-! PROOFS of the family of spec/42_key_sharing.md: the commands on the whole key. First what they answer, by their
parameter check and the end of their draw; then what a drawing and a sharing command leave of the other windows; then the
round trip from a shared key to the combined bytes; last the statements settled. -/

namespace Sys2Proof.Machine

open Sys2Proof.Reference

/-! ### What the commands answer (R141 to R144) -/

theorem exec_rngfill_draws {s t : State} {e : ErrCode} (h : s.countK ≠ 0) (hd : s.rngdraw = some (e, t)) :
    exec .rngfill s = .next (t.complete e) := by
  rw [exec, execRngfill, if_pos (thresholdOk_iff.mpr h), hd]

theorem exec_rngfill_invalid {s : State} (h : s.countK = 0) :
    exec .rngfill s = .next (s.complete .invalidParameters) :=
  if_neg fun hok => thresholdOk_iff.mp hok h

theorem exec_kshare_ok {s : State} (h : 1 ≤ s.countK ∧ s.countK ≤ s.countN) :
    exec .kshare s = .next ((s.createShares s.countN).complete .ok) := if_pos (createOk_iff.mpr h)

theorem exec_kshare_invalid {s : State} (h : ¬ (1 ≤ s.countK ∧ s.countK ≤ s.countN)) :
    exec .kshare s = .next (s.complete .invalidParameters) := if_neg fun hok => h (createOk_iff.mp hok)

theorem exec_kcreate_ok {s t : State} (h : 1 ≤ s.countK ∧ s.countK ≤ s.countN) (hd : s.rngdraw = some (.ok, t)) :
    exec .kcreate s = .next ((t.createShares s.countN).complete .ok) := by
  rw [exec, execKcreate, if_pos (createOk_iff.mpr h), hd]
  rfl

theorem exec_kcreate_fail {s t : State} (h : 1 ≤ s.countK ∧ s.countK ≤ s.countN)
    (hd : s.rngdraw = some (.randomSourceExhausted, t)) :
    exec .kcreate s = .next (t.complete .randomSourceExhausted) := by
  rw [exec, execKcreate, if_pos (createOk_iff.mpr h), hd]
  rfl

theorem exec_kcreate_invalid {s : State} (h : ¬ (1 ≤ s.countK ∧ s.countK ≤ s.countN)) :
    exec .kcreate s = .next (s.complete .invalidParameters) := if_neg fun hok => h (createOk_iff.mp hok)

theorem exec_kcomb_ok {s : State} (h : s.countM ≠ 0) : exec .kcomb s = .next (s.combineKey.complete .ok) :=
  if_pos (combineOk_iff.mpr h)

theorem exec_kcomb_invalid {s : State} (h : s.countM = 0) : exec .kcomb s = .next (s.complete .invalidParameters) :=
  if_neg fun hok => combineOk_iff.mp hok h

/-! ### The offsets the commands leave alone -/

theorem not_coefRange_iff {k a : Nat} :
    ¬ coefRange k a ↔ ∀ p c, p < 32 → 1 ≤ c → c < k → a ≠ coefAddr p c :=
  ⟨fun h p c hp h1 h2 he => h ⟨p, hp, c, h1, h2, he⟩, fun h ⟨p, hp, c, h1, h2, he⟩ => h p c hp h1 h2 he⟩

theorem not_recordAddrs_iff {n a : Nat} :
    ¬ recordAddrs n a ↔ ∀ i, i < n → a ≠ sxAddr i ∧ ∀ p, p < 32 → a ≠ syAddr i p :=
  ⟨fun h i hi => ⟨fun he => h ⟨i, hi, .inl he⟩, fun p hp he => h ⟨i, hi, .inr ⟨p, hp, he⟩⟩⟩,
    fun h ⟨i, hi, ha⟩ => ha.elim (h i hi).1 fun ⟨p, hp, he⟩ => (h i hi).2 p hp he⟩

/-- A draw changes no key byte. -/
theorem OnlyRam.key_eq_of_coefRange {s t : State} {k : Nat} (h : OnlyRam s t (coefRange k)) (hk : k ≤ 255) {p : Nat}
    (hp : p < 32) : t.key p = s.key p := by
  refine h.unchanged _ fun ha => ?_
  have hcoef := coefRange_inCoef hk _ ha
  simp only [inCoef, keyAddr] at hcoef
  omega

/-- Creating the records changes no key byte. -/
theorem createShares_key (s : State) {n p : Nat} (hn : n ≤ 255) (hp : p < 32) : (s.createShares n).key p = s.key p :=
  (createShares_onlyRam s hn).unchanged _ fun ha => not_inShare_keyAddr hp (recordAddrs_inShare hn _ ha)

/-- Creating the records changes no coefficient. -/
theorem createShares_coef (s : State) {n p c : Nat} (hn : n ≤ 255) (hp : p < 32) (h1 : 1 ≤ c) (h2 : c ≤ 254) :
    (s.createShares n).coef p c = s.coef p c :=
  (createShares_onlyRam s hn).unchanged _ fun ha => not_inShare_coefAddr hp h1 h2 (recordAddrs_inShare hn _ ha)

@[simp] theorem State.complete_key (s : State) (e : ErrCode) (p : Nat) : (s.complete e).key p = s.key p := rfl

/-- Stores and the completion change the memory and the completion's fields alone. -/
theorem OnlyRam.complete_frame {s t : State} {A : Nat → Prop} (h : OnlyRam s t A) (e : ErrCode) :
    t.complete e = { s with mem := (t.complete e).mem, err := e, done := true, pend := .none } :=
  congrArg (State.complete · e) h.frame

theorem OnlyRam.complete_unchanged {s t : State} {A : Nat → Prop} (h : OnlyRam s t A) (e : ErrCode) {a : Nat}
    (ha : ¬ A a) : (t.complete e).mem.read a = s.mem.read a := h.unchanged a ha

/-- A draw and its completion change the memory, the answers and the completion's fields alone. -/
theorem OnlyRam.drawn_complete {s t : State} {A : Nat → Prop} (h : OnlyRam s t A) (q : List RngAnswer) (e : ErrCode) :
    ({ t with rng := q } : State).complete e
      = { s with mem := t.mem, rng := q, err := e, done := true, pend := .none } :=
  congrArg (fun u : State => ({ u with rng := q } : State).complete e) h.frame

/-! ### A key shared (R142, R143) and combined again (R144, R145) -/

/-- `t` has the key and the threshold of `s`, and each record below N of `s` is whole on the share polynomials of `t`. -/
structure KeyShared (s t : State) : Prop where
  threshold : 1 ≤ t.countK
  countK_eq : t.countK = s.countK
  key_eq : ∀ p < 32, t.key p = s.key p
  sx_eq : ∀ i < s.countN, t.sx i = BitVec.ofNat 8 (i + 1)
  sy_eq : ∀ i < s.countN, ∀ p < 32, t.sy i p = t.poly p (BitVec.ofNat 8 (i + 1))

/-- The loop of KSHARE and KCREATE shares the key of `s` from any coefficients. -/
theorem keyShared_createShares {s u : State} (hwf : u.mem.wf) (hk : 1 ≤ s.countK) (hcount : u.countK = s.countK)
    (hkey : ∀ p < 32, u.key p = s.key p) : KeyShared s ((u.createShares s.countN).complete .ok) := by
  have hn := countN_le s
  have hstores := createShares_onlyRam u hn
  have hrecords := createShares_records u hwf hn
  have hcountK : (u.createShares s.countN).countK = s.countK := hstores.countK_eq.trans hcount
  exact {
    threshold := hk.trans_eq hcountK.symm
    countK_eq := hcountK
    key_eq := fun p hp => (createShares_key u hn hp).trans (hkey p hp)
    sx_eq := fun i hi => (hrecords i hi).1
    sy_eq := fun i hi p hp =>
      ((hrecords i hi).2 p hp).trans (hstores.poly_eq (recordAddrs_inShare hn) hp _).symm }

/-- KSHARE, or KCREATE, that completes with ERR = 0 has shared the key. -/
theorem keyShared_of_exec {s t : State} {i : Instr} (hwf : s.mem.wf) (hi : i = .kshare ∨ i = .kcreate)
    (hpend : s.pend ≠ .none) (ht : exec i s = .next t) (htp : t.pend = .none) (hte : t.err = .ok) : KeyShared s t := by
  by_cases hok : 1 ≤ s.countK ∧ s.countK ≤ s.countN
  case neg =>
    have hexec : exec i s = .next (s.complete .invalidParameters) := by
      rcases hi with rfl | rfl
      · exact exec_kshare_invalid hok
      · exact exec_kcreate_invalid hok
    cases hexec.symm.trans ht
    cases hte
  case pos =>
    obtain rfl | rfl := hi
    · cases (exec_kshare_ok hok).symm.trans ht
      exact keyShared_createShares hwf hok.1 rfl fun _ _ => rfl
    · rcases rngdraw_cases s with hd | ⟨e, u, q, hd, hdraw, rfl | rfl⟩
      · cases (execKcreate_waits hok.1 hok.2 hd).symm.trans ht
        exact absurd htp hpend
      · cases (exec_kcreate_ok hok hd).symm.trans ht
        exact keyShared_createShares (hdraw.wf hwf) hok.1 hdraw.countK_eq fun p hp =>
          hdraw.key_eq_of_coefRange (countK_le s) hp
      · cases (exec_kcreate_fail hok hd).symm.trans ht
        cases hte

/-- The x-values of two records differ. -/
theorem ofNat_succ_inj {i j : Nat} (hi : i < 255) (hj : j < 255) (h : BitVec.ofNat 8 (i + 1) = BitVec.ofNat 8 (j + 1)) :
    i = j := by
  bv_omega

/-- At least K distinct whole records of a shared key combine to the key. -/
theorem KeyShared.comb_eq {s t u : State} (h : KeyShared s t) {pick : Nat → Nat} (hcount : s.countK ≤ u.countM)
    (hpick : ∀ m, m < u.countM → pick m < s.countN)
    (hinj : ∀ m m', m < u.countM → m' < u.countM → pick m = pick m' → m = m')
    (hplaced : ∀ m j, m < u.countM → j < 33 →
      u.mem.read (shareByteAddr (33 * m + j)) = t.mem.read (shareByteAddr (33 * pick m + j)))
    {p : Nat} (hp : p < 32) : u.comb p = s.key p := by
  have hn := countN_le s
  have hx : ∀ m < u.countM, u.sx m = BitVec.ofNat 8 (pick m + 1) := fun m hm =>
    (hplaced m 0 hm (by omega)).trans (h.sx_eq _ (hpick m hm))
  have hy : ∀ m < u.countM, u.sy m p = t.poly p (u.sx m) := fun m hm => by
    have hbyte := hplaced m (1 + p) hm (by omega)
    rw [← Nat.add_assoc, ← Nat.add_assoc] at hbyte
    rw [hx m hm]
    exact hbyte.trans (h.sy_eq _ (hpick m hm) p hp)
  refine (combineRecoversSecretByte t u p h.threshold (h.countK_eq.trans_le hcount) (fun m hm => ⟨?_, hy m hm⟩)
    fun m m' hm hm' he => hinj m m' hm hm' ?_).trans (h.key_eq p hp)
  · rw [hx m hm]
    exact ofNat_succ_ne_zero (by have := hpick m hm; omega)
  · rw [hx m hm, hx m' hm'] at he
    exact ofNat_succ_inj (by have := hpick m hm; omega) (by have := hpick m' hm'; omega) he

/-! ### The statements settled -/

/-- Settles O27: a draw whose requests are all answered. -/
theorem rngfillDrawsCoefficients : Obligations.RngfillDrawsCoefficients := by
  refine fun s hwf => ⟨exec_rngfill_invalid, fun bs q hk hlen hr => ?_⟩
  obtain ⟨u, hd, hdraw, hbytes⟩ := rngdraw_ok s hwf bs q hlen hr
  exact ⟨_, exec_rngfill_draws hk hd, hdraw.drawn_complete q .ok, hbytes,
    fun a ha => hdraw.unchanged a (not_coefRange_iff.mpr ha)⟩

/-- Settles O28: both commands complete with the state the failed draw leaves. -/
theorem failedDrawZeroisesRange : Obligations.FailedDrawZeroisesRange := by
  intro s bs q i hwf hlen hr hi
  obtain ⟨u, hd, hdraw, hzero⟩ := rngdraw_fail s bs q hlen hr
  have hexec : exec i s = .next (({ u with rng := q } : State).complete .randomSourceExhausted) := by
    rcases hi with rfl | ⟨rfl, hkn⟩
    · exact exec_rngfill_draws (by omega) hd
    · exact exec_kcreate_fail ⟨by omega, hkn⟩ hd
  exact ⟨_, hexec, hdraw.drawn_complete q _, hzero hwf, fun a ha => hdraw.unchanged a (not_coefRange_iff.mpr ha)⟩

/-- Settles O29: the loop stores the records of the polynomials of the state before, and into SHARE only. -/
theorem kshareWritesRecords : Obligations.KshareWritesRecords := by
  refine fun s hwf => ⟨exec_kshare_invalid, fun h => ?_⟩
  have hn := countN_le s
  have hstores := createShares_onlyRam s hn
  refine ⟨_, exec_kshare_ok h, hstores.complete_frame .ok, fun i hi => ?_,
    fun a ha => hstores.complete_unchanged .ok (not_recordAddrs_iff.mpr ha)⟩
  obtain ⟨hx, hy⟩ := createShares_records s hwf hn i hi
  exact ⟨hx, fun p hp => ⟨hy p hp, fun hk => (hy p hp).trans (poly_of_countK_le_one hk.le p _)⟩⟩

/-- Settles O30: the draw of O27, and then the loop of KSHARE on the coefficients drawn. -/
theorem kcreateDrawsAndShares : Obligations.KcreateDrawsAndShares := by
  refine fun s hwf => ⟨exec_kcreate_invalid, fun bs q h hlen hr => ?_⟩
  obtain ⟨u, hd, hdraw, hbytes⟩ := rngdraw_ok s hwf bs q hlen hr
  have hk := countK_le s
  have hn := countN_le s
  have hstores := createShares_onlyRam { u with rng := q } hn
  have hshared : KeyShared s ((State.createShares { u with rng := q } s.countN).complete .ok) :=
    keyShared_createShares (hdraw.wf hwf) h.1 hdraw.countK_eq fun p hp => hdraw.key_eq_of_coefRange hk hp
  refine ⟨_, exec_kcreate_ok h hd, ?frame, fun p c hp h1 h2 => ?coef, hshared.key_eq,
    fun i hi => ⟨hshared.sx_eq i hi, hshared.sy_eq i hi⟩, fun a hcoef hrecord => ?other⟩
  case frame =>
    refine (hstores.complete_frame .ok).trans ?_
    exact congrArg (fun v : State => { v with mem := (State.createShares { u with rng := q } s.countN).mem })
      (hdraw.drawn_complete q .ok)
  case coef =>
    exact (hbytes p c hp h1 h2).trans
      (congrArg some (createShares_coef { u with rng := q } hn hp h1 (by omega)).symm)
  case other =>
    exact (hstores.unchanged a (not_recordAddrs_iff.mpr hrecord)).trans
      (hdraw.unchanged a (not_coefRange_iff.mpr hcoef))

/-- Settles O31: every combined byte is computed from the state before, since KCOMB stores into KEY only. -/
theorem kcombWritesKey : Obligations.KcombWritesKey := by
  refine fun s hwf => ⟨exec_kcomb_invalid, fun hm => ?_⟩
  have hstores := combineKey_onlyRam s
  have hkey : ∀ p < 32, (s.combineKey.complete .ok).key p = s.comb p := fun p hp =>
    (State.complete_key _ _ p).trans (combineKey_key s hwf p hp)
  exact ⟨_, exec_kcomb_ok hm, hstores.complete_frame .ok,
    fun p hp => ⟨hkey p hp, fun h1 => (hkey p hp).trans (comb_of_countM_one h1 p)⟩,
    fun a ha => hstores.complete_unchanged .ok fun ⟨p, hp, he⟩ => ha p hp he⟩

/-- Settles O32: KCOMB writes the combined bytes, and those of M >= K whole records of a shared key are the key's. -/
theorem keyRoundTrip : Obligations.KeyRoundTrip := by
  intro s t u i pick hwf hwfu hi hpend ht htp hte hm hpick hinj hplaced
  have hshared := keyShared_of_exec hwf hi hpend ht htp hte
  have hM : u.countM ≠ 0 := by
    have := hshared.threshold
    have := hshared.countK_eq
    omega
  obtain ⟨v, hexec, hframe, hkey, -⟩ := (kcombWritesKey u hwfu).2 hM
  exact ⟨v, hexec, congrArg State.err hframe,
    fun p hp => (hkey p hp).1.trans (hshared.comb_eq hm hpick hinj hplaced hp)⟩

end Sys2Proof.Machine
end

section
/-! PROOFS of the family of spec/43_control.md: the command lifecycle. First the write to CMD, and the core's turn, idle
and with a latched word; then the ways a command ends, by the code it reports; last the statements settled. -/

namespace Sys2Proof.Machine

open Sys2Proof.Reference

/-! ### The write to CMD (R161) -/

theorem State.busWrite_cmd_idle {s : State} (hs : s.busy = false) (w : Word) : s.busWrite 0x004 w = s.accept w :=
  State.busWrite_idle hs 0x004 w

theorem State.busWrite_cmd_busy {s : State} (hs : s.busy = true) (w : Word) : s.busWrite 0x004 w = s.dropWrite :=
  State.busWrite_busy hs 0x004 w

/-! ### The core's turn (R163, R164) -/

theorem executeWord_of_decode {w : Word} {i : Instr} (h : decode w = some i) (s : State) :
    executeWord w s = exec i s := by
  rw [executeWord, h]

theorem executeWord_illegal {w : Word} (h : decode w = none) (s : State) :
    executeWord w s = .next (s.complete .illegalCommand) := by
  rw [executeWord, h]

/-- Whether its turn is explicit or not, the core moves on the state without its event. -/
theorem step_coreMoves {s : State} {rest : List Event} (h : coreMoves s rest) :
    step s = coreTurn { s with events := rest } := by
  rcases h with ⟨he, rfl⟩ | he
  · rw [step_noEvent he, ← he]
  · exact step_event he

theorem coreTurn_idle {s : State} (hp : s.pend = .none) : coreTurn s = .next s := by
  rw [coreTurn, hp]
  exact ite_self _

theorem coreTurn_latched {s : State} {w : Word} (hr : s.rst = false) (hp : s.pend = .cmd w) :
    coreTurn s = executeWord w s := by
  rw [coreTurn, hr, hp]
  rfl

/-! ### The ways a command ends (R165) -/

/-- RNGFILL, and KCREATE where K <= N. Where there is a request to make, K is not 0 and both have passed their check. -/
def DrawsPastCheck (i : Instr) (s : State) : Prop := i = .rngfill ∨ (i = .kcreate ∧ s.countK ≤ s.countN)

/-- The requests of a draw meet a fail before the last of them is answered. -/
def State.DrawFails (s : State) : Prop :=
  ∃ (bs : List Byte) (q : List RngAnswer), bs.length < 32 * (s.countK - 1) ∧ s.rng = bs.map .byte ++ .fail :: q

/-- The ways a command ends, by its code: it waits for the random source; it completes with ERR = 0; its parameter check
fails; its draw fails. -/
inductive CommandEnd (i : Instr) (s : State) : State → Prop
  | waits : CommandEnd i s s
  | succeeds (u : State) : CommandEnd i s (u.complete .ok)
  | invalid : CommandEnd i s (s.complete .invalidParameters)
  | exhausted (u : State) (hi : DrawsPastCheck i s) (hf : s.DrawFails) :
      CommandEnd i s (u.complete .randomSourceExhausted)

/-- A command that makes no request ends as its parameter check decides. -/
theorem CommandEnd.of_check {i : Instr} {s t u : State} {c : Prop} [Decidable c]
    (h : (if c then .next (u.complete .ok) else .next (s.complete .invalidParameters) :
      Host.Outcome State Fault Refusal) = .next t) : CommandEnd i s t := by
  split at h <;> cases h
  · exact .succeeds u
  · exact .invalid

/-- The code of a draw, and why it fails. -/
theorem rngdraw_end (s : State) :
    s.rngdraw = none ∨ (∃ u, s.rngdraw = some (.ok, u)) ∨
      (s.DrawFails ∧ ∃ u, s.rngdraw = some (.randomSourceExhausted, u)) := by
  rcases rng_cases (32 * (s.countK - 1)) s.rng with ⟨bs, q, hl, hr⟩ | ⟨bs, q, hl, hr⟩ | ⟨bs, hl, hr⟩
  · exact .inr (.inl ⟨_, drawFrom_ok _ _ bs q s (by rw [length_drawOrder, hl]) hr⟩)
  · obtain ⟨u, hd, -, -⟩ := rngdraw_fail s bs q hl hr
    exact .inr (.inr ⟨⟨bs, q, hl, hr⟩, _, hd⟩)
  · exact .inl (rngdraw_none s bs hl hr)

theorem exec_rngfill_end {s t : State} (h : exec .rngfill s = .next t) : CommandEnd .rngfill s t := by
  by_cases hk : s.countK = 0
  · cases (exec_rngfill_invalid hk).symm.trans h
    exact .invalid
  · rcases rngdraw_end s with hd | ⟨u, hd⟩ | ⟨hf, u, hd⟩
    · cases (execRngfill_waits (Nat.one_le_iff_ne_zero.mpr hk) hd).symm.trans h
      exact .waits
    · cases (exec_rngfill_draws hk hd).symm.trans h
      exact .succeeds u
    · cases (exec_rngfill_draws hk hd).symm.trans h
      exact .exhausted u (.inl rfl) hf

theorem exec_kcreate_end {s t : State} (h : exec .kcreate s = .next t) : CommandEnd .kcreate s t := by
  by_cases hok : 1 ≤ s.countK ∧ s.countK ≤ s.countN
  · rcases rngdraw_end s with hd | ⟨u, hd⟩ | ⟨hf, u, hd⟩
    · cases (execKcreate_waits hok.1 hok.2 hd).symm.trans h
      exact .waits
    · cases (exec_kcreate_ok hok hd).symm.trans h
      exact .succeeds _
    · cases (exec_kcreate_fail hok hd).symm.trans h
      exact .exhausted u (.inr ⟨rfl, hok.2⟩) hf
  · cases (exec_kcreate_invalid hok).symm.trans h
    exact .invalid

theorem exec_end {i : Instr} {s t : State} (h : exec i s = .next t) : CommandEnd i s t := by
  cases i with
  | nop | add | mul | inv | zero => cases h; exact .succeeds _
  | eval p | bshare p | basis j | bcomb p | kshare | kcomb => exact .of_check h
  | rngfill => exact exec_rngfill_end h
  | kcreate => exact exec_kcreate_end h

/-! ### The statements settled -/

/-- Settles O35: the code tells how the command ended. A word of no row and a failed check only complete, and O28 says
what a failed draw leaves. -/
theorem failedCommandKeepsState : Obligations.FailedCommandKeepsState := by
  intro w s t hwf herr h
  cases hd : decode w with
  | none =>
    cases (executeWord_illegal hd s).symm.trans h
    exact ⟨fun _ => rfl, nofun⟩
  | some i =>
    rw [executeWord_of_decode hd] at h
    cases exec_end h with
    | waits => rw [herr]; exact ⟨nofun, nofun⟩
    | succeeds u => exact ⟨nofun, nofun⟩
    | invalid => exact ⟨fun _ => rfl, nofun⟩
    | exhausted u hi hf =>
      obtain ⟨bs, q, hlen, hr⟩ := hf
      obtain ⟨t, ht, hframe, hzero, hother⟩ := failedDrawZeroisesRange s bs q i hwf hlen hr hi
      cases h.symm.trans ht
      obtain rfl : u.rng = q := congrArg State.rng hframe
      exact ⟨nofun, fun _ => ⟨hframe, hzero, hother⟩⟩

/-- Settles O6, by the decoding of the latched word. -/
theorem stepRunsLatchedCommand : Obligations.StepRunsLatchedCommand := by
  intro s w rest hp hr hmoves
  have hstep : step s = executeWord w { s with events := rest } :=
    (step_coreMoves hmoves).trans (coreTurn_latched hr hp)
  exact ⟨hstep, fun i hi => hstep.trans (executeWord_of_decode hi _),
    fun hn => hstep.trans (executeWord_illegal hn _)⟩

/-- Settles O7: without an event the core's turn is the step, and with one it is the step of the event. -/
theorem idleCoreHoldsState : Obligations.IdleCoreHoldsState := fun _ hp =>
  ⟨fun he => (step_noEvent he).trans (coreTurn_idle hp), fun _ he => (step_event he).trans (coreTurn_idle hp)⟩

/-- Settles O8: the idle write accepts the word, the busy write is dropped, and BUSY is 1 after either. -/
theorem acceptanceLatchesAnyWord : Obligations.AcceptanceLatchesAnyWord := by
  intro s w rest hr he
  have hidle (hs : s.busy = false) : step s = .next (({ s with events := rest } : State).accept w) := by
    rw [step_write hr rfl he, State.busWrite_cmd_idle (by exact hs)]
  have hbusy (hs : s.busy = true) : step s = .next (({ s with events := rest } : State).dropWrite) := by
    rw [step_write hr rfl he, State.busWrite_cmd_busy (by exact hs)]
  refine ⟨hidle, hbusy, fun t ht => ?_⟩
  cases hs : s.busy with
  | false => cases (hidle hs).symm.trans ht; rfl
  | true => cases (hbusy hs).symm.trans ht; exact hs

/-- Settles O33: the memory with nothing listed reads 0x00 at every offset. -/
theorem zeroClearsSecrets : Obligations.ZeroClearsSecrets :=
  ⟨decodeInvertsEncode .zero rfl, fun _ => ⟨_, rfl, rfl, Memory.read_nil⟩⟩

end Sys2Proof.Machine
end

section
/-! PROOFS of the family of spec/60_exceptions.md: the error codes, the completion of a command, and the interrupt. First
the words of no row; then the parameter checks, and what a command does past its check, said once (`PastCheck`); then the
completion of a latched word, and irq under the host's writes; last the statements settled. -/

namespace Sys2Proof.Machine

open Sys2Proof.Reference

/-! ### The words that match a row (R183) -/

theorem legalWord_iff_decode {w : Word} : legalWord w ↔ ∃ i, decode w = some i := by
  constructor
  · rintro ⟨row, hrow, hw⟩
    obtain ⟨i, hmem, rfl⟩ := (mem_opcodeRows_iff (fieldP w) (fieldI w)).mp hrow
    exact ⟨i, decode_eq_some_iff.mpr ⟨hmem, hw⟩⟩
  · rintro ⟨i, hi⟩
    obtain ⟨hmem, hw⟩ := decode_eq_some_iff.mp hi
    exact ⟨rowOf i, rowOf_mem_opcodeRows hmem, hw⟩

theorem decode_eq_none_iff {w : Word} : decode w = none ↔ ¬ legalWord w := by
  rw [legalWord_iff_decode, Option.eq_none_iff_forall_ne_some, not_exists]

/-! ### The parameter checks (R184) -/

theorem paramK_eq_zero_iff {s : State} : s.paramK = 0 ↔ s.countK = 0 := BitVec.toNat_inj.symm

theorem paramM_eq_zero_iff {s : State} : s.paramM = 0 ↔ s.countM = 0 := BitVec.toNat_inj.symm

theorem paramN_eq_zero_iff {s : State} : s.paramN = 0 ↔ s.countN = 0 := BitVec.toNat_inj.symm

/-- The table's row of BSHARE, KSHARE and KCREATE is the failure of `1 <= K <= N`. -/
theorem createFault_iff {s : State} :
    (s.paramK = 0 ∨ s.paramN = 0 ∨ s.paramN.toNat < s.paramK.toNat) ↔ ¬ (1 ≤ s.countK ∧ s.countK ≤ s.countN) := by
  rw [paramK_eq_zero_iff, paramN_eq_zero_iff, State.countK, State.countN]
  omega

theorem basisFault_iff {s : State} {j : Nat} :
    (s.paramM = 0 ∨ s.paramM.toNat ≤ j) ↔ s.countM = 0 ∨ s.countM ≤ j := or_congr_left paramM_eq_zero_iff

/-- Every check fails as the table says. -/
theorem exec_of_parameterFault {i : Instr} {s : State} (h : parameterFault s i) :
    exec i s = .next (s.complete .invalidParameters) := by
  cases i with
  | nop | add | mul | inv | zero => exact h.elim
  | eval p => exact exec_eval_invalid p (paramK_eq_zero_iff.mp h)
  | bshare p => exact exec_bshare_invalid p (createFault_iff.mp h)
  | basis j => exact exec_basis_invalid (basisFault_iff.mp h)
  | bcomb p => exact exec_bcomb_invalid p (paramM_eq_zero_iff.mp h)
  | rngfill => exact exec_rngfill_invalid (paramK_eq_zero_iff.mp h)
  | kshare => exact exec_kshare_invalid (createFault_iff.mp h)
  | kcreate => exact exec_kcreate_invalid (createFault_iff.mp h)
  | kcomb => exact exec_kcomb_invalid (paramM_eq_zero_iff.mp h)

/-- The ways a command ends past its check: its draw waits for an answer, or it completes, not with InvalidParameters. -/
inductive PastCheck (i : Instr) (s : State) : State → Prop
  | waits (hi : DrawsPastCheck i s) (hd : s.rngdraw = none) : PastCheck i s s
  | completes (u : State) (e : ErrCode) (he : e ≠ .invalidParameters) : PastCheck i s (u.complete e)

theorem PastCheck.of_ok {i : Instr} {s t u : State} (hok : exec i s = .next (u.complete .ok)) (h : exec i s = .next t) :
    PastCheck i s t := by
  cases hok.symm.trans h
  exact .completes u .ok nofun

theorem exec_rngfill_pastCheck {s t : State} (hk : s.countK ≠ 0) (h : exec .rngfill s = .next t) :
    PastCheck .rngfill s t := by
  rcases rngdraw_end s with hd | ⟨u, hd⟩ | ⟨-, u, hd⟩
  · cases (execRngfill_waits (Nat.one_le_iff_ne_zero.mpr hk) hd).symm.trans h
    exact .waits (.inl rfl) hd
  · exact .of_ok (exec_rngfill_draws hk hd) h
  · cases (exec_rngfill_draws hk hd).symm.trans h
    exact .completes u _ nofun

theorem exec_kcreate_pastCheck {s t : State} (hk : 1 ≤ s.countK ∧ s.countK ≤ s.countN)
    (h : exec .kcreate s = .next t) : PastCheck .kcreate s t := by
  rcases rngdraw_end s with hd | ⟨u, hd⟩ | ⟨-, u, hd⟩
  · cases (execKcreate_waits hk.1 hk.2 hd).symm.trans h
    exact .waits (.inr ⟨rfl, hk.2⟩) hd
  · exact .of_ok (exec_kcreate_ok hk hd) h
  · cases (exec_kcreate_fail hk hd).symm.trans h
    exact .completes u _ nofun

theorem exec_pastCheck {i : Instr} {s t : State} (hv : ¬ parameterFault s i) (h : exec i s = .next t) :
    PastCheck i s t := by
  cases i with
  | nop | add | mul | inv | zero => exact .of_ok rfl h
  | eval p => exact .of_ok (exec_eval_ok p (mt paramK_eq_zero_iff.mpr hv)) h
  | bshare p => exact .of_ok (exec_bshare_ok p (not_not.mp (mt createFault_iff.mpr hv))) h
  | basis j =>
    have hj : s.countM ≠ 0 ∧ j < s.countM := by simpa using mt basisFault_iff.mpr hv
    exact .of_ok (exec_basis_ok hj) h
  | bcomb p => exact .of_ok (exec_bcomb_ok p (mt paramM_eq_zero_iff.mpr hv)) h
  | rngfill => exact exec_rngfill_pastCheck (mt paramK_eq_zero_iff.mpr hv) h
  | kshare => exact .of_ok (exec_kshare_ok (not_not.mp (mt createFault_iff.mpr hv))) h
  | kcreate => exact exec_kcreate_pastCheck (not_not.mp (mt createFault_iff.mpr hv)) h
  | kcomb => exact .of_ok (exec_kcomb_ok (mt paramM_eq_zero_iff.mpr hv)) h

/-! ### The completion of a latched word (R182) -/

/-- A draw whose requests are answered ends (R140). -/
theorem State.answered.rngdraw_ne_none {s : State} (h : s.answered (32 * (s.countK - 1))) : s.rngdraw ≠ none := by
  rcases rng_cases (32 * (s.countK - 1)) s.rng with ⟨bs, q, hl, hr⟩ | ⟨bs, q, hl, hr⟩ | ⟨bs, hl, hr⟩
  · rw [State.rngdraw, drawFrom_ok _ _ bs q s (by rw [length_drawOrder, hl]) hr]
    nofun
  · obtain ⟨u, hd, -, -⟩ := rngdraw_fail s bs q hl hr
    rw [hd]
    nofun
  · rcases h with hlen | ⟨j, -, hj⟩
    · rw [hr, List.length_map] at hlen
      omega
    · simp [hr] at hj

/-- A word that decodes to a command past its check of a draw is the table's word of that command (R84). -/
theorem drawsBytes_of_decode {w : Word} {i : Instr} {s : State} (h : decode w = some i) (hi : DrawsPastCheck i s) :
    drawsBytes s w := by
  obtain ⟨-, hw⟩ := encodeInvertsDecode w i h
  rcases hi with rfl | ⟨rfl, hk⟩
  · exact .inl hw.symm
  · exact .inr ⟨hw.symm, hk⟩

theorem executeWord_pend_none {w : Word} {s t : State} (hd : drawsBytes s w → s.answered (32 * (s.countK - 1)))
    (h : executeWord w s = .next t) : t.pend = .none := by
  cases hw : decode w with
  | none =>
    cases (executeWord_illegal hw s).symm.trans h
    rfl
  | some i =>
    rw [executeWord_of_decode hw] at h
    by_cases hf : parameterFault s i
    · cases (exec_of_parameterFault hf).symm.trans h
      rfl
    · cases exec_pastCheck hf h with
      | waits hi hn => exact absurd hn (hd (drawsBytes_of_decode hw hi)).rngdraw_ne_none
      | completes u e => rfl

/-- What the completion of a command sets, DONE, and what it keeps: IE, WBUSY, CMDLAST and the waiting events. -/
structure Completion (s t : State) : Prop where
  done : t.done = true
  ie : t.ie = s.ie
  wbusy : t.wbusy = s.wbusy
  cmdlast : t.cmdlast = s.cmdlast
  events : t.events = s.events

/-- Once it is no longer latched, the word has completed. -/
theorem executeWord_completion {w : Word} {s t : State} (hp : s.pend = .cmd w) (h : executeWord w s = .next t)
    (ht : t.pend = .none) : Completion s t := by
  cases hw : decode w with
  | none =>
    cases (executeWord_illegal hw s).symm.trans h
    exact ⟨rfl, rfl, rfl, rfl, rfl⟩
  | some i =>
    rw [executeWord_of_decode hw] at h
    cases exec_result h with
    | waits => exact nomatch hp.symm.trans ht
    | completes | writesR | clears | stores => exact ⟨rfl, rfl, rfl, rfl, rfl⟩

/-! ### The interrupt under the host's writes (R188, R189) -/

/-- STATUS and IRQEN take writes idle and busy alike (R56, R60). -/
theorem State.busWrite_status (s : State) (v : Word) : s.busWrite 0x008 v = s.writeStatus v := by
  cases hs : s.busy with
  | false => exact State.busWrite_idle hs 0x008 v
  | true => exact State.busWrite_busy hs 0x008 v

theorem State.busWrite_irqen (s : State) (v : Word) : s.busWrite 0x01C v = s.writeIrqen v := by
  cases hs : s.busy with
  | false => exact State.busWrite_idle hs 0x01C v
  | true => exact State.busWrite_busy hs 0x01C v

theorem State.irq_writeStatus (s : State) (v : Word) : (s.writeStatus v).irq = (s.done && !v.getLsbD 1 && s.ie) := rfl

theorem State.irq_writeIrqen (s : State) (v : Word) : (s.writeIrqen v).irq = (s.done && v.getLsbD 0) := rfl

theorem State.irq_accept (s : State) (w : Word) : (s.accept w).irq = false := rfl

theorem State.irq_resetRegisters (s : State) (level : Bool) : (s.resetRegisters level).irq = false := rfl

theorem step_write_status {s : State} {v : Word} {rest : List Event} (hr : s.rst = false)
    (he : s.events = .write .w32 0x008 v :: rest) :
    step s = .next (({ s with events := rest } : State).writeStatus v) := by
  rw [step_write hr rfl he, State.busWrite_status]

theorem step_write_irqen {s : State} {v : Word} {rest : List Event} (hr : s.rst = false)
    (he : s.events = .write .w32 0x01C v :: rest) :
    step s = .next (({ s with events := rest } : State).writeIrqen v) := by
  rw [step_write hr rfl he, State.busWrite_irqen]

/-! ### The statements settled -/

/-- Settles O5: a word of no row decodes to no command, and no way a command ends reports IllegalCommand. -/
theorem illegalCommandExactly : Obligations.IllegalCommandExactly := by
  refine fun w s => ⟨fun hw => executeWord_illegal (decode_eq_none_iff.mpr hw) s, fun hw herr t h => ?_⟩
  obtain ⟨i, hi⟩ := legalWord_iff_decode.mp hw
  rw [executeWord_of_decode hi] at h
  cases exec_end h with
  | waits => rw [herr]; nofun
  | succeeds | invalid | exhausted => nofun

/-- Settles O9: with its requests answered, no word stays latched. -/
theorem answeredCommandCompletes : Obligations.AnsweredCommandCompletes := by
  intro s w rest hp hr hmoves hd
  obtain ⟨hstep, -, -⟩ := stepRunsLatchedCommand s w rest hp hr hmoves
  obtain ⟨t, ht⟩ := executeWord_next w { s with events := rest }
  have hpend : t.pend = .none := executeWord_pend_none (s := { s with events := rest }) hd ht
  obtain ⟨hdone, -, hwbusy, hlast, hevents⟩ := executeWord_completion (by exact hp) ht hpend
  exact ⟨t, hstep.trans ht, hpend, by simp [State.busy, hpend], hdone, hwbusy, hlast, hevents⟩

/-- Settles O34: the table's cases are the failures of the checks, and past its check no command reports the code. -/
theorem parameterChecksAsTabled : Obligations.ParameterChecksAsTabled := by
  refine fun s i herr => ⟨exec_of_parameterFault, fun hv t h => ?_⟩
  cases exec_pastCheck hv h with
  | waits => rw [herr]; nofun
  | completes u e he => exact he

/-- Settles O36: of the ways a command ends, only a failed draw reports the code. -/
theorem onlyDrawsExhaustSource : Obligations.OnlyDrawsExhaustSource := by
  intro s t i herr h ht
  cases exec_end h with
  | waits => exact nomatch herr.symm.trans ht
  | succeeds | invalid => exact nomatch ht
  | exhausted u hi hf => exact ⟨hi.imp_right And.left, hf⟩

/-- Settles O51: a completed command has set DONE and kept IE; a write of 1 to IE leaves DONE as it is. -/
theorem irqRises : Obligations.IrqRises := by
  refine ⟨fun s => rfl, fun s t w rest hp hr hmoves h ht => ?_, fun s t v rest hr hdone hv he h => ?_⟩
  · obtain ⟨hstep, -, -⟩ := stepRunsLatchedCommand s w rest hp hr hmoves
    obtain ⟨hdone, hie, -, -, -⟩ := executeWord_completion (by exact hp) (hstep.symm.trans h) ht
    rw [State.irq, hdone, hie, Bool.true_and]
  · cases (step_write_irqen hr he).symm.trans h
    rw [State.irq_writeIrqen, hdone, hv, Bool.true_and]

/-- Settles O52: each cause clears DONE or IE. -/
theorem irqFalls : Obligations.IrqFalls := by
  refine fun s t v rest h => ⟨fun hr hv he => ?_, fun hr hv he => ?_, fun hr hs he => ?_, fun he => ?_⟩
  · cases (step_write_status hr he).symm.trans h
    rw [State.irq_writeStatus, hv, Bool.not_true, Bool.and_false, Bool.false_and]
  · cases (step_write_irqen hr he).symm.trans h
    rw [State.irq_writeIrqen, hv, Bool.and_false]
  · obtain ⟨hidle, -, -⟩ := acceptanceLatchesAnyWord s v rest hr he
    cases (hidle hs).symm.trans h
    exact State.irq_accept _ v
  · rcases he with he | he <;> cases (step_event he).symm.trans h <;> exact State.irq_resetRegisters _ _

end Sys2Proof.Machine
end

section
/-! PROOFS of the family of spec/70_reset_and_hazards.md: reset, the operands of a busy core, and the operation counts.
First the moves of a core held in reset and what a move leaves of a busy core; then how often a list of operations
calls each unit (`opCounts`), loop by loop and command by command; last the statements settled. -/

namespace Sys2Proof.Machine

open Sys2Proof.Reference

/-! ### The core under reset (R200, R201) -/

theorem coreTurn_resetClear {s : State} (hr : s.rst = false) (hp : s.pend = .resetClear) :
    coreTurn s = .next s.resetClear := by
  rw [coreTurn, hr, hp]
  rfl

theorem step_rstAssert {s : State} {rest : List Event} (he : s.events = .rstAssert :: rest) :
    step s = .next (State.resetRegisters { s with events := rest } true) := step_event he

theorem step_rstRelease {s : State} {rest : List Event} (he : s.events = .rstRelease :: rest) :
    step s = .next (State.resetRegisters { s with events := rest } false) := step_event he

theorem coreTurn_held {s : State} (hr : s.rst = true) : coreTurn s = .next s := if_pos hr

theorem supplyAnswer_held {s : State} (x : RngAnswer) (hr : s.rst = true) : supplyAnswer x s = s := if_pos hr

/-- While rst is asserted a read records the next free value (I4). -/
theorem hostRead_held {s : State} {off : BitVec 15} (hr : s.rst = true) (h4 : off.toNat % 4 = 0) :
    hostRead .w32 off s
      = .next { s with hostReads := s.hostReads ++ [Config.freeWord s.freeCount], freeCount := s.freeCount + 1 } := by
  rw [hostRead, if_pos (accessOk_eq_true.mpr ⟨rfl, h4⟩), if_pos hr]

theorem hostWrite_held {s : State} {off : BitVec 15} (v : Word) (hr : s.rst = true) (h4 : off.toNat % 4 = 0) :
    hostWrite .w32 off v s = .next s := by
  rw [hostWrite, if_pos (accessOk_eq_true.mpr ⟨rfl, h4⟩), if_pos hr]

/-! ### What a move leaves of a busy core (R60, R68, R206) -/

theorem hostRead_frame {width : Width} {off : BitVec 15} {s t : State} (h : hostRead width off s = .next t) :
    t = { s with hostReads := t.hostReads, freeCount := t.freeCount } := by
  unfold hostRead at h
  split_ifs at h <;> cases h <;> rfl

/-- A write while busy changes DONE, WBUSY and IE at most, and nothing where rst is asserted. -/
theorem hostWrite_busy_frame {width : Width} {off : BitVec 15} {v : Word} {s t : State} (hs : s.busy = true)
    (h : hostWrite width off v s = .next t) : t = { s with done := t.done, wbusy := t.wbusy, ie := t.ie } := by
  unfold hostWrite at h
  split_ifs at h <;> cases h
  · rfl
  · rw [State.busWrite_busy hs]
    exact s.writeBusy_frame v _

theorem supplyAnswer_frame (x : RngAnswer) (s : State) :
    supplyAnswer x s = { s with rng := (supplyAnswer x s).rng } := by
  unfold supplyAnswer
  split <;> rfl

/-- While busy, a host access and an answer change the flags DONE, WBUSY and IE, the answers to come, and the record of
the words read, at most. -/
theorem moveAgent_busy_frame {e : Event} {s t : State} (hs : s.busy = true) (hcore : e ≠ .core)
    (hassert : e ≠ .rstAssert) (hrelease : e ≠ .rstRelease) (h : moveAgent e s = .next t) :
    t = { s with
          done := t.done, wbusy := t.wbusy, ie := t.ie, rng := t.rng, hostReads := t.hostReads
          freeCount := t.freeCount } := by
  cases e with
  | core => exact absurd rfl hcore
  | read width off => rw [hostRead_frame h]
  | write width off v => rw [hostWrite_busy_frame hs h]
  | answer x =>
    cases h
    rw [supplyAnswer_frame]
  | rstAssert => exact absurd rfl hassert
  | rstRelease => exact absurd rfl hrelease

/-! ### How often a list of operations calls each unit (R109, R212) -/

/-- The gmul calls, the ginv calls and the random requests of a list of operations. -/
def opCounts (l : List Op) : ℕ × ℕ × ℕ := (l.count .gmul, l.count .ginv, l.count .request)

theorem opCounts_opsOf_iff {s : State} {j : Instr} {g v r : ℕ} :
    opCounts (s.opsOf j) = (g, v, r) ↔ s.gmulCalls j = g ∧ s.ginvCalls j = v ∧ s.requests j = r := by
  rw [opCounts, Prod.mk.injEq, Prod.mk.injEq]
  rfl

@[simp] theorem opCounts_nil : opCounts [] = 0 := rfl

section Counts

variable (l l' : List Op) (x : Nat)

@[simp] theorem opCounts_append : opCounts (l ++ l') = opCounts l + opCounts l' := by
  simp [opCounts]

@[simp] theorem opCounts_gmul : opCounts (.gmul :: l) = opCounts l + (1, 0, 0) := by simp [opCounts]

@[simp] theorem opCounts_ginv : opCounts (.ginv :: l) = opCounts l + (0, 1, 0) := by simp [opCounts]

@[simp] theorem opCounts_request : opCounts (.request :: l) = opCounts l + (0, 0, 1) := by simp [opCounts]

@[simp] theorem opCounts_load : opCounts (.load x :: l) = opCounts l := by simp [opCounts]

@[simp] theorem opCounts_store : opCounts (.store x :: l) = opCounts l := by simp [opCounts]

end Counts

/-- Parts that each make the calls `c`. -/
theorem opCounts_flatMap {α : Type} {g : α → List Op} {c : ℕ × ℕ × ℕ} {js : List α}
    (h : ∀ j ∈ js, opCounts (g j) = c) : opCounts (js.flatMap g) = js.length • c := by
  induction js with
  | nil => simp
  | cons j js ih =>
    rw [List.flatMap_cons, opCounts_append, h j (by simp), ih fun j' hj' => h j' (by simp [hj']), List.length_cons,
      succ_nsmul']

theorem opCounts_stores {α : Type} (off : α → Nat) (js : List α) : opCounts (js.map fun j => .store (off j)) = 0 := by
  rw [List.map_eq_flatMap, opCounts_flatMap (c := 0) fun _ _ => opCounts_store _ _, smul_zero]

/-- `t` has the K and M of `s`, and its operations make the calls `c`. -/
structure Makes (s : State) (c : ℕ × ℕ × ℕ) (t : Counted State) : Prop where
  countK_eq : t.1.countK = s.countK
  countM_eq : t.1.countM = s.countM
  counts : opCounts t.2 = c

/-- A loop whose iterations each make the calls `c` more. -/
theorem makes_forUp {f : Nat → Counted State → Counted State} {c : ℕ × ℕ × ℕ} {s : State}
    (h : ∀ i t d, Makes s d t → Makes s (d + c) (f i t)) (n : Nat) : Makes s (n • c) (forUp n f (s, [])) := by
  refine forUp_induct (P := fun i t => Makes s (i • c) t) ⟨rfl, rfl, (zero_smul ℕ c).symm⟩ fun i t _ ht => ?_
  rw [succ_nsmul]
  exact h i t _ ht

/-! ### The calls of the functions of the operands (R120, R123, R125) -/

@[simp] theorem State.writeMem_countK (s : State) (x : Nat) (v : Byte) : (s.writeMem x v).countK = s.countK := rfl

/-- One gmul call for each coefficient and one for KEY[p]. -/
@[simp] theorem opCounts_polyC (s : State) (p : Nat) (x : Byte) :
    opCounts (s.polyC p x).2 = (s.countK - 1 + 1, 0, 0) := by
  rw [polyC_ops_eq, opCounts_append, opCounts_flatMap (c := (1, 0, 0)) fun _ _ => by simp]
  simp

/-- Two gmul calls for each point but i. -/
theorem opCounts_basisProductsC (s : State) (i n : Nat) :
    opCounts (s.basisProductsC i n).2 = (2 * (if i < n then n - 1 else n), 0, 0) := by
  rw [basisProductsC_ops_eq]
  induction n with
  | zero => rfl
  | succ n ih =>
    rw [List.range_succ, List.flatMap_append, opCounts_append, ih, List.flatMap_singleton]
    by_cases hn : n = i
    · simp [hn]
    · have hiff : i < n + 1 ↔ i < n := by omega
      simp only [if_neg hn, hiff]
      split <;> simp <;> omega

/-- The products, the 13 gmul calls of one ginv, and the last product. -/
theorem opCounts_basisC {s : State} {i : Nat} (hi : i < s.countM) :
    opCounts (s.basisC i).2 = (2 * s.countM + 12, 1, 0) := by
  rw [basisC_snd, opCounts_append, opCounts_append, opCounts_basisProductsC, if_pos hi]
  show (2 * (s.countM - 1) + 13 + 1, 1, 0) = _
  congr 1
  omega

@[simp] theorem opCounts_combC (s : State) (p : Nat) :
    opCounts (s.combC p).2 = s.countM • (2 * s.countM + 13, 1, 0) := by
  rw [combC_ops_eq, opCounts_flatMap (c := (2 * s.countM + 13, 1, 0)), List.length_range]
  intro i hi
  rw [opCounts_load, opCounts_append, opCounts_basisC (List.mem_range.mp hi)]
  simp

/-! ### The calls of the loops (R122, R140, R142, R144) -/

theorem makes_createByteSharesC (s : State) (p n : Nat) :
    Makes s (n • (s.countK - 1 + 1, 0, 0)) (s.createByteSharesC p n) :=
  makes_forUp (fun i t d ⟨hk, hm, hc⟩ => ⟨hk, hm, by simp [hk, hc]⟩) n

theorem makes_createRecordC (s : State) (i : Nat) (x : Byte) :
    Makes s (32 • (s.countK - 1 + 1, 0, 0)) (s.createRecordC i x) :=
  makes_forUp (fun p t d ⟨hk, hm, hc⟩ => ⟨hk, hm, by simp [hk, hc]⟩) 32

theorem makes_createSharesC (s : State) (n : Nat) :
    Makes s (n • 32 • (s.countK - 1 + 1, 0, 0)) (s.createSharesC n) := by
  refine makes_forUp (fun i t d ⟨hk, hm, hc⟩ => ?_) n
  obtain ⟨hk', hm', hc'⟩ :=
    makes_createRecordC (t.1.writeMem (sxAddr i) (BitVec.ofNat 8 (i + 1))) i (BitVec.ofNat 8 (i + 1))
  refine ⟨hk'.trans hk, hm'.trans hm, ?_⟩
  simp [hc, hc', hk]

theorem makes_combineKeyC (s : State) : Makes s (32 • s.countM • (2 * s.countM + 13, 1, 0)) s.combineKeyC :=
  makes_forUp (fun p t d ⟨hk, hm, hc⟩ => ⟨hk, hm, by simp [hm, hc]⟩) 32

/-- A draw calls neither gmul nor ginv, and makes every request of its order where none fails. -/
theorem opCounts_drawOps {k : Nat} {ps : List (Nat × Nat)} {fails : List Bool} {d : ErrCode × List Op}
    (h : drawOps k ps fails = some d) : ∃ r, opCounts d.2 = (0, 0, r) ∧ (d.1 = .ok → r = ps.length) := by
  induction ps generalizing fails d with
  | nil => cases h; exact ⟨0, rfl, fun _ => rfl⟩
  | cons pc ps ih =>
    cases fails with
    | nil => cases h
    | cons b q =>
      cases b with
      | true =>
        cases h
        exact ⟨1, by rw [opCounts_request, opCounts_stores]; rfl, nofun⟩
      | false =>
        obtain ⟨d', hd', rfl⟩ := Option.map_eq_some_iff.mp h
        obtain ⟨r, hr, hok⟩ := ih hd'
        exact ⟨r + 1, by simp [hr], fun he => by rw [hok he, List.length_cons]⟩

/-- A draw whose requests are all answered with a byte makes all its requests. -/
theorem drawOps_of_rngdraw_ok {s t : State} (h : s.rngdraw = some (.ok, t)) :
    ∃ l, drawOps s.countK (drawOrder s.countK) (answerFails s) = some (.ok, l) ∧
      opCounts l = (0, 0, 32 * (s.countK - 1)) := by
  obtain ⟨d, hd, he⟩ := Option.map_eq_some_iff.mp ((rngdrawC_fst s).trans h)
  have hops : drawOps s.countK (drawOrder s.countK) (answerFails s) = some (.ok, d.2) := by
    rw [← drawFromC_ops, ← State.rngdrawC, hd, Option.map_some, he]
  obtain ⟨r, hr, hok⟩ := opCounts_drawOps hops
  exact ⟨d.2, hops, by rw [hr, hok rfl, length_drawOrder]⟩

/-! ### The calls of the commands (R212) -/

/-- A command past its check makes the calls `c`; one whose check fails makes none. -/
theorem opCounts_ite {ok : Bool} {l : List Op} {c : ℕ × ℕ × ℕ} (h : ok = true → opCounts l = c) :
    opCounts (if ok then l else []) = if ok then c else 0 := by
  cases ok with
  | true => exact h rfl
  | false => rfl

/-- Past the check of BSHARE, KSHARE and KCREATE, K is at least 1. -/
theorem countK_of_createOk {s : State} (h : s.createOk = true) : s.countK - 1 + 1 = s.countK :=
  Nat.sub_add_cancel (createOk_iff.mp h).1

theorem opCounts_inv (s : State) : opCounts (s.opsOf .inv) = (13, 1, 0) := by
  rw [State.opsOf, ginvC_snd]
  rfl

/-- K = 0 fails the check, and K gmul calls are none then. -/
theorem opCounts_eval (s : State) (p : Nat) : opCounts (s.opsOf (.eval p)) = (s.countK, 0, 0) := by
  by_cases hk : s.countK = 0
  · rw [State.opsOf, if_neg (mt thresholdOk_iff.mp (not_not.mpr hk)), hk]
    rfl
  · rw [State.opsOf, if_pos (thresholdOk_iff.mpr hk), opCounts_polyC, Nat.sub_one_add_one hk]

theorem opCounts_bshare (s : State) (p : Nat) :
    opCounts (s.opsOf (.bshare p)) = if s.createOk then (s.countN * s.countK, 0, 0) else 0 :=
  opCounts_ite fun h => by
    rw [(makes_createByteSharesC s p s.countN).counts, countK_of_createOk h]
    simp

theorem opCounts_basis (s : State) (i : Nat) :
    opCounts (s.opsOf (.basis i)) = if s.basisOk i then (2 * s.countM + 12, 1, 0) else 0 :=
  opCounts_ite fun h => opCounts_basisC (basisOk_iff.mp h).2

/-- M = 0 fails the check, and the calls of M basis values are none then. -/
theorem opCounts_bcomb (s : State) (p : Nat) :
    opCounts (s.opsOf (.bcomb p)) = (s.countM * (2 * s.countM + 13), s.countM, 0) := by
  by_cases hm : s.countM = 0
  · rw [State.opsOf, if_neg (mt combineOk_iff.mp (not_not.mpr hm)), hm]
    rfl
  · rw [State.opsOf, if_pos (combineOk_iff.mpr hm)]
    simp

theorem opCounts_kshare (s : State) :
    opCounts (s.opsOf .kshare) = if s.createOk then (32 * s.countN * s.countK, 0, 0) else 0 :=
  opCounts_ite fun h => by
    rw [(makes_createSharesC s s.countN).counts, countK_of_createOk h]
    simp [mul_left_comm, mul_assoc]

theorem opCounts_kcomb (s : State) :
    opCounts (s.opsOf .kcomb) = (32 * s.countM * (2 * s.countM + 13), 32 * s.countM, 0) := by
  by_cases hm : s.countM = 0
  · rw [State.opsOf, if_neg (mt combineOk_iff.mp (not_not.mpr hm)), hm]
    rfl
  · rw [State.opsOf, if_pos (combineOk_iff.mpr hm), (makes_combineKeyC s).counts]
    simp [mul_assoc]

theorem opCounts_zero (s : State) : opCounts (s.opsOf .zero) = (0, 0, 0) := opCounts_stores id ramOffsets

/-- RNGFILL makes requests only. -/
theorem opCounts_rngfill (s : State) : ∃ r, opCounts (s.opsOf .rngfill) = (0, 0, r) := by
  rw [opsOf_rngfill]
  split
  · cases hd : drawOps s.countK (drawOrder s.countK) (answerFails s) with
    | none => exact ⟨0, rfl⟩
    | some d =>
      obtain ⟨r, hr, -⟩ := opCounts_drawOps hd
      exact ⟨r, hr⟩
  · exact ⟨0, rfl⟩

theorem opCounts_rngfill_ok {s t : State} (h : s.rngdraw = some (.ok, t)) (hk : 1 ≤ s.countK) :
    opCounts (s.opsOf .rngfill) = (0, 0, 32 * (s.countK - 1)) := by
  obtain ⟨l, hd, hl⟩ := drawOps_of_rngdraw_ok h
  rw [opsOf_rngfill, if_pos (thresholdOk_iff.mpr (Nat.one_le_iff_ne_zero.mp hk)), hd]
  exact hl

/-- The shares that KCREATE makes past its check cost what those of KSHARE cost. -/
theorem opCounts_createSharesC {s : State} (h : s.createOk = true) :
    opCounts (s.createSharesC s.countN).2 = (32 * s.countN * s.countK, 0, 0) := by
  have hshare := opCounts_kshare s
  rwa [State.opsOf, if_pos h, if_pos h] at hshare

/-- KCREATE never calls ginv, however its draw ends. -/
theorem opCounts_kcreate (s : State) : ∃ g r, opCounts (s.opsOf .kcreate) = (g, 0, r) := by
  rw [opsOf_kcreate]
  split
  next hok =>
    cases hd : drawOps s.countK (drawOrder s.countK) (answerFails s) with
    | none => exact ⟨0, 0, rfl⟩
    | some d =>
      obtain ⟨r, hr, -⟩ := opCounts_drawOps hd
      rw [Option.elim_some]
      split
      · exact ⟨32 * s.countN * s.countK, r, by rw [opCounts_append, hr, opCounts_createSharesC hok]; simp⟩
      · exact ⟨0, r, hr⟩
  next => exact ⟨0, 0, rfl⟩

theorem opCounts_kcreate_ok {s t : State} (h : s.rngdraw = some (.ok, t)) (hok : 1 ≤ s.countK ∧ s.countK ≤ s.countN) :
    opCounts (s.opsOf .kcreate) = (32 * s.countN * s.countK, 0, 32 * (s.countK - 1)) := by
  obtain ⟨l, hd, hl⟩ := drawOps_of_rngdraw_ok h
  have hcheck := createOk_iff.mpr hok
  rw [opsOf_kcreate, if_pos hcheck, hd, Option.elim_some, if_pos rfl, opCounts_append, hl,
    opCounts_createSharesC hcheck]
  simp

/-- The commands that call ginv. -/
def CallsGinv (j : Instr) : Prop := j = .inv ∨ (∃ i, j = .basis i) ∨ (∃ p, j = .bcomb p) ∨ j = .kcomb

/-- Only the drawing commands make requests, and only the commands of `CallsGinv` call ginv. -/
theorem opCounts_opsOf (s : State) (j : Instr) :
    ∃ g v r, opCounts (s.opsOf j) = (g, v, r) ∧ (¬ Draws j → r = 0) ∧ (¬ CallsGinv j → v = 0) := by
  cases j with
  | nop | add => exact ⟨0, 0, 0, rfl, fun _ => rfl, fun _ => rfl⟩
  | mul => exact ⟨1, 0, 0, rfl, fun _ => rfl, fun _ => rfl⟩
  | zero => exact ⟨0, 0, 0, opCounts_zero s, fun _ => rfl, fun _ => rfl⟩
  | inv => exact ⟨13, 1, 0, opCounts_inv s, fun _ => rfl, fun h => absurd (.inl rfl) h⟩
  | eval p => exact ⟨_, 0, 0, opCounts_eval s p, fun _ => rfl, fun _ => rfl⟩
  | bshare p =>
    rw [opCounts_bshare]
    split <;> exact ⟨_, 0, 0, rfl, fun _ => rfl, fun _ => rfl⟩
  | kshare =>
    rw [opCounts_kshare]
    split <;> exact ⟨_, 0, 0, rfl, fun _ => rfl, fun _ => rfl⟩
  | basis i =>
    rw [opCounts_basis]
    split <;> exact ⟨_, _, 0, rfl, fun _ => rfl, fun h => absurd (.inr (.inl ⟨i, rfl⟩)) h⟩
  | bcomb p => exact ⟨_, _, 0, opCounts_bcomb s p, fun _ => rfl, fun h => absurd (.inr (.inr (.inl ⟨p, rfl⟩))) h⟩
  | kcomb => exact ⟨_, _, 0, opCounts_kcomb s, fun _ => rfl, fun h => absurd (.inr (.inr (.inr rfl))) h⟩
  | rngfill =>
    obtain ⟨r, hr⟩ := opCounts_rngfill s
    exact ⟨0, 0, r, hr, fun h => absurd (.inl rfl) h, fun _ => rfl⟩
  | kcreate =>
    obtain ⟨g, r, hr⟩ := opCounts_kcreate s
    exact ⟨g, 0, r, hr, fun h => absurd (.inr rfl) h, fun _ => rfl⟩

/-! ### The statements settled -/

/-- Settles O54: the memory with nothing listed reads 0x00 at every offset. -/
theorem resetClearZeroesRams : Obligations.ResetClearZeroesRams := by
  intro s rest hp hr hmoves
  have hstep : step s = .next (State.resetClear { s with events := rest }) :=
    (step_coreMoves hmoves).trans (coreTurn_resetClear hr hp)
  exact ⟨_, hstep, rfl, State.resetClear_busy _, Memory.read_nil, rfl⟩

/-- Settles O56: each agent's move while rst is asserted. -/
theorem heldInResetIsInert : Obligations.HeldInResetIsInert := by
  intro s rest hr
  have hr' : ({ s with events := rest } : State).rst = true := hr
  exact ⟨fun hmoves => (step_coreMoves hmoves).trans (coreTurn_held hr'),
    fun off v h4 he => (step_event he).trans (hostWrite_held v hr' h4),
    fun a he => (step_event he).trans (congrArg Host.Outcome.next (supplyAnswer_held a hr')),
    fun off h4 he => ⟨_, (step_event he).trans (hostRead_held hr' h4)⟩⟩

/-- Settles O49: what a move changes of a busy core is none of these fields. -/
theorem operandsFixedWhileBusy : Obligations.OperandsFixedWhileBusy := by
  intro s t e rest hs he hcore hassert hrelease h
  rw [step_event he] at h
  rw [moveAgent_busy_frame (s := { s with events := rest }) hs hcore hassert hrelease h]
  exact ⟨rfl, rfl, rfl, rfl, rfl, rfl, rfl, rfl, rfl, rfl⟩

/-- Settles O55: both edges take the registers to their reset values, and the core's turn is then the reset clear. -/
theorem resetAbandonsCommand : Obligations.ResetAbandonsCommand := by
  intro s rest he
  have hcore (t : State) : step (State.resetRegisters { t with events := .core :: rest } false)
      = .next (State.resetRegisters { t with events := rest } false).resetClear :=
    (step_coreMoves (.inr rfl)).trans (coreTurn_resetClear rfl rfl)
  exact ⟨_, _, _, step_rstAssert he, step_rstRelease rfl, hcore _, rfl, rfl⟩

/-- Settles O39: the counts of each command's list of operations, and the values of the counted copies. -/
theorem operationCountsArePublic : Obligations.OperationCountsArePublic := by
  refine ⟨fun x y => ⟨gmulC_fst x y, ginvC_fst x⟩, fun s p i n x => ?_⟩
  obtain ⟨hzero, -, -⟩ := opCounts_opsOf_iff.mp (opCounts_zero s)
  obtain ⟨r, hr⟩ := opCounts_rngfill s
  obtain ⟨hrngfill, -, -⟩ := opCounts_opsOf_iff.mp hr
  obtain ⟨hinv, hinv', -⟩ := opCounts_opsOf_iff.mp (opCounts_inv s)
  obtain ⟨heval, -, -⟩ := opCounts_opsOf_iff.mp (opCounts_eval s p)
  obtain ⟨hbcomb, hbcomb', -⟩ := opCounts_opsOf_iff.mp (opCounts_bcomb s p)
  obtain ⟨hkcomb, hkcomb', -⟩ := opCounts_opsOf_iff.mp (opCounts_kcomb s)
  refine ⟨polyC_fst s p x, basisC_fst s i, combC_fst s p, createByteSharesC_fst s p n, createSharesC_fst s n,
    combineKeyC_fst s, rngdrawC_fst s, rfl, rfl, hzero, hrngfill, rfl, hinv, hinv', fun _ => heval,
    fun h1 h2 => ?create, fun hi => ?basis, hbcomb, hbcomb', hkcomb, hkcomb',
    fun t ht => ⟨fun hk => ?rngfill, fun h1 h2 => ?kcreate⟩, fun j => ?others⟩
  case create =>
    have hok := createOk_iff.mpr ⟨h1, h2⟩
    obtain ⟨hbshare, -, -⟩ := opCounts_opsOf_iff.mp ((opCounts_bshare s p).trans (if_pos hok))
    obtain ⟨hkshare, -, -⟩ := opCounts_opsOf_iff.mp ((opCounts_kshare s).trans (if_pos hok))
    exact ⟨hbshare, hkshare⟩
  case basis =>
    have hok := basisOk_iff.mpr ⟨Nat.ne_zero_of_lt hi, hi⟩
    obtain ⟨hgmul, hginv, -⟩ := opCounts_opsOf_iff.mp ((opCounts_basis s i).trans (if_pos hok))
    exact ⟨hgmul, hginv⟩
  case rngfill =>
    obtain ⟨-, -, hreq⟩ := opCounts_opsOf_iff.mp (opCounts_rngfill_ok ht hk)
    exact hreq
  case kcreate =>
    obtain ⟨hgmul, -, hreq⟩ := opCounts_opsOf_iff.mp (opCounts_kcreate_ok ht ⟨h1, h2⟩)
    exact ⟨hreq, hgmul⟩
  case others =>
    obtain ⟨g, v, r, hj, hdraw, hcall⟩ := opCounts_opsOf s j
    obtain ⟨-, rfl, rfl⟩ := opCounts_opsOf_iff.mp hj
    exact ⟨fun h1 h2 => hdraw (by simp [Draws, h1, h2]), fun h1 h2 h3 h4 => hcall (by simp [CallsGinv, h1, h2, h3, h4])⟩

end Sys2Proof.Machine
end
